-- ==== Sys2Proof/Word.lean ====
section
/-! DEFINITION. The word types of the core (spec 00_scope.md R5, R9): all values are unsigned, there is no signed
quantity and no sign extension. -/

namespace Sys2Proof

/-- An 8-bit value: a general register, a timer, a byte of memory (R5 `XLEN`, `TIMER_W`). -/
abbrev Byte := BitVec 8

/-- A 16-bit value: an instruction word, `pc`, the index register, a stack entry (R5 `PC_W`, `INDEX_W`, `STACK_W`). -/
abbrev Word := BitVec 16

/-- The number of a general register or of a key latch, 0 to 15 (R20, R28). -/
abbrev Reg := Fin 16

/-- One row of the frame buffer, 64 one-bit pixels: bit `c` is the pixel at column `c` (R29). -/
abbrev PixelRow := BitVec 64

end Sys2Proof
end

