-- ==== Sys2Proof/Config.lean ====
section
/-! DEFINITION. The fixed parameters of the core (00_scope.md R5), its font table (R6, 70_reset_and_hazards.md R182) and its
one free value, the random byte (R6, 42_alu.md R111, 60_exceptions.md R167). -/

namespace Sys2Proof.Config

/-- R5 `MEM_SIZE`: addresses 0 to 4095. -/
def memSize : Nat := 4096

/-- R5 `PROG_BASE`: first address of the program region and reset value of `pc`. -/
def progBase : Nat := 0x200

/-- R5 `PROG_MAX`: the largest program in bytes. -/
def progMax : Nat := 3584

/-- R5 `GLYPH_LEN`: bytes per font glyph. -/
def glyphLen : Nat := 5

/-- R5 `VID_W`. -/
def vidW : Nat := 64

/-- R5 `VID_H`. -/
def vidH : Nat := 32

/-- R5 `FLAG_REG`: the register used as implicit flag output. -/
def flagReg : Reg := 15

/-- R5 `BASE_STEPS_PER_TICK`: the threshold at speed multiplier 1.0. DESIGN CHOICE (log 4): the value the input
`steps_per_tick` has until the host sets another. -/
def baseStepsPerTick : Nat := 9

/-- R182 `FONT`, the 80 bytes at 0x000 to 0x04F after power-on reset. The source gives no byte of it; this is the
customary table the spec offers as default. PRESUMED (log 1): no claim may rest on these bytes without saying so. -/
def font : List Byte :=
  [0xF0, 0x90, 0x90, 0x90, 0xF0] ++ [0x20, 0x60, 0x20, 0x20, 0x70] ++
  [0xF0, 0x10, 0xF0, 0x80, 0xF0] ++ [0xF0, 0x10, 0xF0, 0x10, 0xF0] ++
  [0x90, 0x90, 0xF0, 0x10, 0x10] ++ [0xF0, 0x80, 0xF0, 0x10, 0xF0] ++
  [0xF0, 0x80, 0xF0, 0x90, 0xF0] ++ [0xF0, 0x10, 0x20, 0x40, 0x40] ++
  [0xF0, 0x90, 0xF0, 0x90, 0xF0] ++ [0xF0, 0x90, 0xF0, 0x10, 0xF0] ++
  [0xF0, 0x90, 0xF0, 0x90, 0x90] ++ [0xE0, 0x90, 0xE0, 0x90, 0xE0] ++
  [0xF0, 0x80, 0x80, 0x80, 0xF0] ++ [0xE0, 0x90, 0x90, 0x90, 0xE0] ++
  [0xF0, 0x80, 0xF0, 0x80, 0xF0] ++ [0xF0, 0x80, 0xF0, 0x80, 0x80]

/-- R6, R111, R167: the random byte of the `k`-th draw. A free value (log 2): nothing is known of the sequence. -/
opaque rnd : Nat → Byte

end Sys2Proof.Config
end

