-- ==== Sys2Proof/Syntax.lean ====
section
/-! DEFINITION. The instructions of the core, one constructor per row of spec/opcode_table.json (30_encoding.md R65), and
the operations of the other agent, the host (00_scope.md R7, 60_exceptions.md R162). -/

namespace Sys2Proof

/-- The 34 instructions of R65, in the table's order. `nnn` is the 12-bit address zero-extended to 16 bits (R62), `n` the
sprite height; `WellFormed` bounds both. The `y` digit that `SHR` and `SHL` carry and ignore (R63) is kept. -/
inductive Instr where
  | cls                            -- 00E0  CLS
  | ret                            -- 00EE  RET
  | jp (nnn : Word)                -- 1nnn  JP nnn
  | call (nnn : Word)              -- 2nnn  CALL nnn
  | seImm (x : Reg) (nn : Byte)    -- 3xnn  SE Vx, nn
  | sneImm (x : Reg) (nn : Byte)   -- 4xnn  SNE Vx, nn
  | seReg (x y : Reg)              -- 5xy0  SE Vx, Vy
  | ldImm (x : Reg) (nn : Byte)    -- 6xnn  LD Vx, nn
  | addImm (x : Reg) (nn : Byte)   -- 7xnn  ADD Vx, nn
  | ldReg (x y : Reg)              -- 8xy0  LD Vx, Vy
  | or (x y : Reg)                 -- 8xy1  OR Vx, Vy
  | and (x y : Reg)                -- 8xy2  AND Vx, Vy
  | xor (x y : Reg)                -- 8xy3  XOR Vx, Vy
  | addReg (x y : Reg)             -- 8xy4  ADD Vx, Vy
  | sub (x y : Reg)                -- 8xy5  SUB Vx, Vy
  | shr (x y : Reg)                -- 8xy6  SHR Vx
  | subn (x y : Reg)               -- 8xy7  SUBN Vx, Vy
  | shl (x y : Reg)                -- 8xyE  SHL Vx
  | sneReg (x y : Reg)             -- 9xy0  SNE Vx, Vy
  | ldI (nnn : Word)               -- Annn  LD I, nnn
  | jpV0 (nnn : Word)              -- Bnnn  JP V0, nnn
  | rnd (x : Reg) (nn : Byte)      -- Cxnn  RND Vx, nn
  | drw (x y : Reg) (n : Nat)      -- Dxyn  DRW Vx, Vy, n
  | skp (x : Reg)                  -- Ex9E  SKP Vx
  | sknp (x : Reg)                 -- ExA1  SKNP Vx
  | ldVxDt (x : Reg)               -- Fx07  LD Vx, DT
  | ldVxK (x : Reg)                -- Fx0A  LD Vx, K
  | ldDtVx (x : Reg)               -- Fx15  LD DT, Vx
  | ldStVx (x : Reg)               -- Fx18  LD ST, Vx
  | addI (x : Reg)                 -- Fx1E  ADD I, Vx
  | ldF (x : Reg)                  -- Fx29  LD F, Vx
  | ldB (x : Reg)                  -- Fx33  LD B, Vx
  | stRegs (x : Reg)               -- Fx55  LD [I], Vx
  | ldRegs (x : Reg)               -- Fx65  LD Vx, [I]
  deriving DecidableEq, Repr

/-- What the host may do (R162): its operations on the state, all between steps, and its step requests. Its reads are
functions of the state and are no operation here. Of a step request's two inputs (R89) `steps_per_tick` comes with it and
the random byte is a free value (log 2). -/
inductive HostOp where
  | powerOnReset                                        -- R180
  | warmReset                                           -- R181
  | loadProgram (reported : Nat) (bytes : List Byte)    -- R183, R163: `reported` is the length the byte source announced
  | setKey (k : Reg) (pressed : Bool)                   -- R162 "write a key latch"
  | clearDrawFlag                                       -- R162 "clear the draw flag"
  | requestStep (stepsPerTick : Nat)                    -- R162 "request a step", R89
  | setStepsPerTick (n : Nat)                           -- the model's own (log 4): the input of the requests an empty queue stands for
  deriving DecidableEq, Repr

end Sys2Proof
end

