-- ==== Sys2Proof/WellFormed.lean ====
section
/-! DEFINITION. Which instruction terms an encoding exists for (30_encoding.md R61, R62), and which host operations keep
the host's side of the interface (00_scope.md R6, 70_reset_and_hazards.md R186). -/

namespace Sys2Proof

/-- R61, R62: an address immediate is 12 bits wide. -/
abbrev AddressFits (nnn : Word) : Prop := nnn.toNat ≤ 0xFFF

/-- R61, R62: a row count is 4 bits wide. -/
abbrev RowCountFits (n : Nat) : Prop := n ≤ 15

/-- The instruction's immediates fit their fields. Register numbers and `nn` fit by their types. -/
def Instr.wellFormed : Instr → Bool
  | .jp nnn | .call nnn | .ldI nnn | .jpV0 nnn => decide (AddressFits nnn)
  | .drw _ _ n => decide (RowCountFits n)
  | .cls | .ret => true
  | .seImm _ _ | .sneImm _ _ | .ldImm _ _ | .addImm _ _ | .rnd _ _ => true
  | .seReg _ _ | .sneReg _ _ | .ldReg _ _ | .or _ _ | .and _ _ | .xor _ _ | .addReg _ _ => true
  | .sub _ _ | .shr _ _ | .subn _ _ | .shl _ _ => true
  | .skp _ | .sknp _ | .ldVxDt _ | .ldVxK _ | .ldDtVx _ | .ldStVx _ => true
  | .addI _ | .ldF _ | .ldB _ | .stRegs _ | .ldRegs _ => true

/-- The check as a decidable proposition. -/
abbrev Instr.WellFormed (i : Instr) : Prop := i.wellFormed = true

/-- R6, R158, R186 (d): the host must pass `steps_per_tick >= 1`. Every other host operation is allowed as it stands
(an over-long program is rejected by the load itself, R183). -/
def HostOp.wellFormed : HostOp → Bool
  | .requestStep n | .setStepsPerTick n => decide (1 ≤ n)
  | .powerOnReset | .warmReset | .loadProgram _ _ | .setKey _ _ | .clearDrawFlag => true

/-- The check as a decidable proposition. -/
abbrev HostOp.WellFormed (o : HostOp) : Prop := o.wellFormed = true

end Sys2Proof
end

