-- ==== Sys2Proof/Decode.lean ====
section
/-! DEFINITION. Decoding and encoding (30_encoding.md): the fields of a word R61, the decode rule R64, the unrecognised words
R66, the opcode map R65 as data, and the encoder. -/

namespace Sys2Proof

/-! ### Fields (R61) -/

/-- `t`, the top nibble `op[15:12]`. -/
def fieldT (op : Word) : Nat := (op.extractLsb' 12 4).toNat

/-- `x`, the register number `op[11:8]`. -/
def fieldX (op : Word) : Reg := Fin.ofNat 16 (op.extractLsb' 8 4).toNat

/-- `y`, the register number `op[7:4]`. -/
def fieldY (op : Word) : Reg := Fin.ofNat 16 (op.extractLsb' 4 4).toNat

/-- `n`, the row count or secondary opcode `op[3:0]`. -/
def fieldN (op : Word) : Nat := (op.extractLsb' 0 4).toNat

/-- `nn`, the 8-bit immediate or secondary opcode `op[7:0]`. -/
def fieldNN (op : Word) : Byte := op.extractLsb' 0 8

/-- `nnn`, the 12-bit address `op[11:0]`, zero-extended to 16 bits (R62). -/
def fieldNNN (op : Word) : Word := (op.extractLsb' 0 12).setWidth 16

/-! ### Decoding (R64, R66) -/

/-- Why a byte sequence is not an instruction: it ends inside the word, or its word is in one of the six families of R66
that have unrecognised words. -/
inductive Reject where
  | truncated
  | unrecognised0 (op : Word)
  | unrecognised5 (op : Word)
  | unrecognised8 (op : Word)
  | unrecognised9 (op : Word)
  | unrecognisedE (op : Word)
  | unrecognisedF (op : Word)
  deriving DecidableEq, Repr

/-- Family 0: the whole word is checked (R64, decision D4, log 10). -/
def decode0 (op : Word) : Except Reject Instr :=
  if op = 0x00E0 then .ok .cls
  else if op = 0x00EE then .ok .ret
  else .error (.unrecognised0 op)

/-- Families 5 and 9 require `n = 0` (R64, decision D4, log 10). -/
def decode5 (op : Word) : Except Reject Instr :=
  if fieldN op = 0 then .ok (.seReg (fieldX op) (fieldY op)) else .error (.unrecognised5 op)

/-- Family 8 dispatches on `n` (R64; the assignment of the digits is R114, log 11). -/
def decode8 (op : Word) : Except Reject Instr :=
  match fieldN op with
  | 0x0 => .ok (.ldReg (fieldX op) (fieldY op))
  | 0x1 => .ok (.or (fieldX op) (fieldY op))
  | 0x2 => .ok (.and (fieldX op) (fieldY op))
  | 0x3 => .ok (.xor (fieldX op) (fieldY op))
  | 0x4 => .ok (.addReg (fieldX op) (fieldY op))
  | 0x5 => .ok (.sub (fieldX op) (fieldY op))
  | 0x6 => .ok (.shr (fieldX op) (fieldY op))
  | 0x7 => .ok (.subn (fieldX op) (fieldY op))
  | 0xE => .ok (.shl (fieldX op) (fieldY op))
  | _ => .error (.unrecognised8 op)

@[inherit_doc decode5]
def decode9 (op : Word) : Except Reject Instr :=
  if fieldN op = 0 then .ok (.sneReg (fieldX op) (fieldY op)) else .error (.unrecognised9 op)

/-- Family E dispatches on `nn` (R64). -/
def decodeE (op : Word) : Except Reject Instr :=
  if fieldNN op = 0x9E then .ok (.skp (fieldX op))
  else if fieldNN op = 0xA1 then .ok (.sknp (fieldX op))
  else .error (.unrecognisedE op)

/-- Family F dispatches on `nn` (R64; the timer words are R146, log 15). -/
def decodeF (op : Word) : Except Reject Instr :=
  if fieldNN op = 0x07 then .ok (.ldVxDt (fieldX op))
  else if fieldNN op = 0x0A then .ok (.ldVxK (fieldX op))
  else if fieldNN op = 0x15 then .ok (.ldDtVx (fieldX op))
  else if fieldNN op = 0x18 then .ok (.ldStVx (fieldX op))
  else if fieldNN op = 0x1E then .ok (.addI (fieldX op))
  else if fieldNN op = 0x29 then .ok (.ldF (fieldX op))
  else if fieldNN op = 0x33 then .ok (.ldB (fieldX op))
  else if fieldNN op = 0x55 then .ok (.stRegs (fieldX op))
  else if fieldNN op = 0x65 then .ok (.ldRegs (fieldX op))
  else .error (.unrecognisedF op)

/-- R64, R83: the instruction of a word, dispatched on the top nibble and then on the family's secondary opcode. Reads the
word alone. -/
def decode (op : Word) : Except Reject Instr :=
  match fieldT op with
  | 0x0 => decode0 op
  | 0x1 => .ok (.jp (fieldNNN op))
  | 0x2 => .ok (.call (fieldNNN op))
  | 0x3 => .ok (.seImm (fieldX op) (fieldNN op))
  | 0x4 => .ok (.sneImm (fieldX op) (fieldNN op))
  | 0x5 => decode5 op
  | 0x6 => .ok (.ldImm (fieldX op) (fieldNN op))
  | 0x7 => .ok (.addImm (fieldX op) (fieldNN op))
  | 0x8 => decode8 op
  | 0x9 => decode9 op
  | 0xA => .ok (.ldI (fieldNNN op))
  | 0xB => .ok (.jpV0 (fieldNNN op))
  | 0xC => .ok (.rnd (fieldX op) (fieldNN op))
  | 0xD => .ok (.drw (fieldX op) (fieldY op) (fieldN op))
  | 0xE => decodeE op
  | _ => decodeF op

/-! ### Bytes (R42, R60) -/

/-- R42 `memory[pc] << 8 | memory[pc+1]`: the byte at the lower address supplies bits 15:8. -/
def wordOfBytes (lowAddr highAddr : Byte) : Word := (lowAddr.setWidth 16 <<< 8) ||| highAddr.setWidth 16

/-- The two bytes of a word in memory order (R42): bits 15:8 first. -/
def bytesOfWord (op : Word) : List Byte := [op.extractLsb' 8 8, op.extractLsb' 0 8]

/-- Decode the instruction at the head of a byte sequence and give the rest. -/
def decodeBytes : List Byte → Except Reject (Instr × List Byte)
  | a :: b :: rest => (decode (wordOfBytes a b)).map fun i => (i, rest)
  | [_] | [] => .error .truncated

/-- A row of the opcode table as the host numbers it: `w mod 2^nbits`, stored as the hardware stores a word (R42). -/
def tableWord (nbits w : Nat) : Word := BitVec.ofNat 16 (w % 2 ^ nbits)

/-- The instruction this decoder reads from a table word (none where it refuses). -/
def decodeTableWord (nbits w : Nat) : Option Instr :=
  match decodeBytes (bytesOfWord (tableWord nbits w)) with
  | .ok (i, _) => some i
  | .error _ => none

/-! ### Encoding (R63, R65) -/

/-- Formats `I` and `X`: `t`, `x`, then the low byte. -/
def wordTxNN (t : Nat) (x : Reg) (nn : Nat) : Word := BitVec.ofNat 16 (0x1000 * t + 0x100 * x.val + nn)

/-- Formats `R` and `D`: `t`, `x`, `y`, then the low nibble. -/
def wordTxyN (t : Nat) (x y : Reg) (n : Nat) : Word := BitVec.ofNat 16 (0x1000 * t + 0x100 * x.val + 0x10 * y.val + n)

/-- Format `A`: `t`, then the 12-bit address. -/
def wordTNNN (t : Nat) (nnn : Word) : Word := BitVec.ofNat 16 (0x1000 * t + nnn.toNat)

/-- The word of a well-formed instruction, from the patterns of R65. -/
def encode : Instr → Word
  | .cls => 0x00E0
  | .ret => 0x00EE
  | .jp nnn => wordTNNN 0x1 nnn
  | .call nnn => wordTNNN 0x2 nnn
  | .seImm x nn => wordTxNN 0x3 x nn.toNat
  | .sneImm x nn => wordTxNN 0x4 x nn.toNat
  | .seReg x y => wordTxyN 0x5 x y 0x0
  | .ldImm x nn => wordTxNN 0x6 x nn.toNat
  | .addImm x nn => wordTxNN 0x7 x nn.toNat
  | .ldReg x y => wordTxyN 0x8 x y 0x0
  | .or x y => wordTxyN 0x8 x y 0x1
  | .and x y => wordTxyN 0x8 x y 0x2
  | .xor x y => wordTxyN 0x8 x y 0x3
  | .addReg x y => wordTxyN 0x8 x y 0x4
  | .sub x y => wordTxyN 0x8 x y 0x5
  | .shr x y => wordTxyN 0x8 x y 0x6
  | .subn x y => wordTxyN 0x8 x y 0x7
  | .shl x y => wordTxyN 0x8 x y 0xE
  | .sneReg x y => wordTxyN 0x9 x y 0x0
  | .ldI nnn => wordTNNN 0xA nnn
  | .jpV0 nnn => wordTNNN 0xB nnn
  | .rnd x nn => wordTxNN 0xC x nn.toNat
  | .drw x y n => wordTxyN 0xD x y n
  | .skp x => wordTxNN 0xE x 0x9E
  | .sknp x => wordTxNN 0xE x 0xA1
  | .ldVxDt x => wordTxNN 0xF x 0x07
  | .ldVxK x => wordTxNN 0xF x 0x0A
  | .ldDtVx x => wordTxNN 0xF x 0x15
  | .ldStVx x => wordTxNN 0xF x 0x18
  | .addI x => wordTxNN 0xF x 0x1E
  | .ldF x => wordTxNN 0xF x 0x29
  | .ldB x => wordTxNN 0xF x 0x33
  | .stRegs x => wordTxNN 0xF x 0x55
  | .ldRegs x => wordTxNN 0xF x 0x65

/-- The bytes of a well-formed instruction in memory order. -/
def encodeBytes (i : Instr) : List Byte := bytesOfWord (encode i)

/-! ### The opcode map as data (R65)

Written from the table and used by nothing above: it is the second description that claims hold the decoder against. -/

/-- A row of R65: a word `op` is the instruction iff `op & mask = fixed`. -/
structure OpcodeRow where
  mnemonic : String
  fixed : Word
  mask : Word
  deriving DecidableEq, Repr

/-- R65's test. -/
def OpcodeRow.fits (row : OpcodeRow) (op : Word) : Bool := (op &&& row.mask) == row.fixed

/-- R65, families 0 to 2. -/
def table0to2 : List OpcodeRow :=
  [⟨"CLS", 0x00E0, 0xFFFF⟩,
   ⟨"RET", 0x00EE, 0xFFFF⟩,
   ⟨"JP", 0x1000, 0xF000⟩,
   ⟨"CALL", 0x2000, 0xF000⟩]

/-- R65, families 3 to 7. -/
def table3to7 : List OpcodeRow :=
  [⟨"SE_IMM", 0x3000, 0xF000⟩,
   ⟨"SNE_IMM", 0x4000, 0xF000⟩,
   ⟨"SE_REG", 0x5000, 0xF00F⟩,
   ⟨"LD_IMM", 0x6000, 0xF000⟩,
   ⟨"ADD_IMM", 0x7000, 0xF000⟩]

/-- R65, family 8. -/
def table8 : List OpcodeRow :=
  [⟨"LD_REG", 0x8000, 0xF00F⟩,
   ⟨"OR", 0x8001, 0xF00F⟩,
   ⟨"AND", 0x8002, 0xF00F⟩,
   ⟨"XOR", 0x8003, 0xF00F⟩,
   ⟨"ADD_REG", 0x8004, 0xF00F⟩,
   ⟨"SUB", 0x8005, 0xF00F⟩,
   ⟨"SHR", 0x8006, 0xF00F⟩,
   ⟨"SUBN", 0x8007, 0xF00F⟩,
   ⟨"SHL", 0x800E, 0xF00F⟩]

/-- R65, families 9 to D. -/
def table9toD : List OpcodeRow :=
  [⟨"SNE_REG", 0x9000, 0xF00F⟩,
   ⟨"LD_I", 0xA000, 0xF000⟩,
   ⟨"JP_V0", 0xB000, 0xF000⟩,
   ⟨"RND", 0xC000, 0xF000⟩,
   ⟨"DRW", 0xD000, 0xF000⟩]

/-- R65, family E, and the key and timer words of family F. -/
def tableEtoF : List OpcodeRow :=
  [⟨"SKP", 0xE09E, 0xF0FF⟩,
   ⟨"SKNP", 0xE0A1, 0xF0FF⟩,
   ⟨"LD_VX_DT", 0xF007, 0xF0FF⟩,
   ⟨"LD_VX_K", 0xF00A, 0xF0FF⟩,
   ⟨"LD_DT_VX", 0xF015, 0xF0FF⟩,
   ⟨"LD_ST_VX", 0xF018, 0xF0FF⟩]

/-- R65, the index and memory words of family F. -/
def tableFIndex : List OpcodeRow :=
  [⟨"ADD_I", 0xF01E, 0xF0FF⟩,
   ⟨"LD_F", 0xF029, 0xF0FF⟩,
   ⟨"LD_B", 0xF033, 0xF0FF⟩,
   ⟨"ST_REGS", 0xF055, 0xF0FF⟩,
   ⟨"LD_REGS", 0xF065, 0xF0FF⟩]

/-- R65: the opcode map, complete, 34 rows in the table's order. -/
def opcodeTable : List OpcodeRow :=
  table0to2 ++ table3to7 ++ table8 ++ table9toD ++ tableEtoF ++ tableFIndex

/-- The table's name of an instruction (R68). -/
def Instr.mnemonic : Instr → String
  | .cls => "CLS" | .ret => "RET" | .jp _ => "JP" | .call _ => "CALL"
  | .seImm _ _ => "SE_IMM" | .sneImm _ _ => "SNE_IMM" | .seReg _ _ => "SE_REG"
  | .ldImm _ _ => "LD_IMM" | .addImm _ _ => "ADD_IMM" | .ldReg _ _ => "LD_REG"
  | .or _ _ => "OR" | .and _ _ => "AND" | .xor _ _ => "XOR" | .addReg _ _ => "ADD_REG"
  | .sub _ _ => "SUB" | .shr _ _ => "SHR" | .subn _ _ => "SUBN" | .shl _ _ => "SHL"
  | .sneReg _ _ => "SNE_REG" | .ldI _ => "LD_I" | .jpV0 _ => "JP_V0" | .rnd _ _ => "RND"
  | .drw _ _ _ => "DRW" | .skp _ => "SKP" | .sknp _ => "SKNP" | .ldVxDt _ => "LD_VX_DT"
  | .ldVxK _ => "LD_VX_K" | .ldDtVx _ => "LD_DT_VX" | .ldStVx _ => "LD_ST_VX"
  | .addI _ => "ADD_I" | .ldF _ => "LD_F" | .ldB _ => "LD_B" | .stRegs _ => "ST_REGS" | .ldRegs _ => "LD_REGS"

end Sys2Proof
end

