-- ==== Sys2Proof/Machine/State.lean ====
section
/-! DEFINITION. The state of the core (10_state.md R19 to R38), the model's own fields for its inputs and its event output, the
state after power-on reset (70_reset_and_hazards.md R180), and the reasons a step can stop. -/

namespace Sys2Proof.Machine

/-- R151: the six fault causes. Taking a fault is a next state with the latch set (R152), so these are no `Fault`s of the
host's interface. -/
inductive FaultCause where
  | fetchOutOfRange       -- code 1
  | dataReadOutOfRange    -- code 2
  | dataWriteOutOfRange   -- code 3
  | stackOverflow         -- code 4
  | stackUnderflow        -- code 5
  | keyIndexOutOfRange    -- code 6
  deriving DecidableEq, Repr

/-- R33: what the fault latch holds after a fault. -/
structure FaultRecord where
  cause : FaultCause
  info : Word
  deriving DecidableEq, Repr

/-- R85, R155: one `UnknownOpcode(a, op)` event: the address of the word and the word. -/
structure UnknownOpcode where
  addr : Word
  word : Word
  deriving DecidableEq, Repr

/-- R34, R40: the 4096 bytes, as the list of the bytes that differ from `Memory.unlisted` (log 5), addresses strictly
rising. -/
abbrev Memory := List Host.Cell

structure State where
  /-- R20: the general registers `V[0]` to `V[15]`. -/
  v : Vector Byte 16
  /-- R22. -/
  pc : Word
  /-- R23: `I`. -/
  index : Word
  /-- R24: the return stack, in no address space. -/
  stack : Vector Word 16
  /-- R25: the next free slot, 0 to 16. -/
  sp : Fin 17
  /-- R26: `DT`. -/
  dt : Byte
  /-- R27: `ST`. -/
  st : Byte
  /-- R28: true means pressed. -/
  keypad : Vector Bool 16
  /-- R29: row `r`, column `c` is `video[64 * r + c]` (held by rows: log 21). -/
  video : Vector PixelRow 32
  /-- R30. -/
  drawFlag : Bool
  /-- R31: the most recently fetched word. -/
  opcode : Word
  /-- R32. -/
  tickCount : Nat
  /-- R33. -/
  fault : Option FaultRecord
  /-- R34. -/
  mem : Memory
  /-- The model's own (log 4): the input `steps_per_tick` the host presented last (R6, R89). -/
  stepsPerTick : Nat
  /-- The model's own (log 2): how many random bytes have been drawn (R6, R167). -/
  rndIndex : Nat
  /-- The model's own (log 6): the events emitted so far, newest first (R85, R155). -/
  events : List UnknownOpcode
  /-- The model's own (log 3): the host's pending operations and step requests, first one first (R162). -/
  host : List HostOp
  deriving DecidableEq, Repr

/-- R180, R36: the state after power-on reset; the model's own fields as logs 2, 3, 4 and 6 say. -/
def State.reset : State where
  v := Vector.replicate 16 0
  pc := 0x200
  index := 0
  stack := Vector.replicate 16 0
  sp := 0
  dt := 0
  st := 0
  keypad := Vector.replicate 16 false
  video := Vector.replicate 32 0
  drawFlag := true
  opcode := 0
  tickCount := 0
  fault := none
  mem := []
  stepsPerTick := Config.baseStepsPerTick
  rndIndex := 0
  events := []
  host := []

/-- The machine never stops with a fault of this interface: the spec's faults are next states with the latch set, and a
halted core is still a machine that the host can reset (R152, R153; log 7). So there is no reason to list. -/
inductive Fault where
  deriving DecidableEq, Repr

/-- Why a step is refused. -/
inductive Refusal where
  /-- Raised by an arm of `exec` that has no meaning yet; no arm is left so. Safe. -/
  | notModelled (mnemonic : String)
  /-- Raised by a step request with `steps_per_tick = 0`: R158 "the core's behaviour for 0 is not defined and a model
  should refuse it" (log 8). Safe. -/
  | stepsPerTickZero
  deriving DecidableEq, Repr

end Sys2Proof.Machine
end

