-- ==== Sys2Proof/Machine/Ops.lean ====
section
/-! DEFINITION. The shared operations of the machine: memory (20_memory.md), taking a fault and the resets that leave it
(60_exceptions.md R152, R153; 70_reset_and_hazards.md R180, R181), fetch, advance, skip, the return stack, the tick phase
(60_exceptions.md R158), and the host's operations (60_exceptions.md R162). -/

namespace Sys2Proof.Machine

/-- The outcome of an instruction or a step. -/
abbrev Result := Host.Outcome State Fault Refusal

/-! ### Memory (R34, R40, R41) -/

/-- What a byte that is not listed reads as: the content after power-on reset, `FONT` at 0 to 79 and 0 above (R180). -/
def Memory.unlisted (a : Nat) : Byte := (Config.font[a]?).getD 0

/-- The byte at address `a`. Every access is range-checked before it (`RangeInMemory`, `fetch`). -/
def Memory.read : Memory → Nat → Byte
  | [], a => Memory.unlisted a
  | (b, w) :: m, a => if a = b then w else Memory.read m a

/-- The listed bytes but for address `a`. -/
def Memory.without (m : Memory) (a : Nat) : Memory := m.filter fun c => c.1 != a

/-- A new entry for `a` before the first higher address. -/
def Memory.insert : Memory → Nat → Byte → Memory
  | [], a, val => [(a, val)]
  | c :: m, a, val => if a < c.1 then (a, val) :: c :: m else c :: Memory.insert m a val

/-- Store one byte, keeping the canonical form: the value an unlisted address reads as is not listed. -/
def Memory.write (m : Memory) (a : Nat) (val : Byte) : Memory :=
  if val = Memory.unlisted a then m.without a else (m.without a).insert a val

/-- Store bytes at ascending addresses from `a` (R43). -/
def Memory.writeBytes : Memory → Nat → List Byte → Memory
  | m, _, [] => m
  | m, a, b :: bs => Memory.writeBytes (m.write a b) (a + 1) bs

/-- `count` bytes at ascending addresses from `a` (R43). -/
def Memory.readBytes (m : Memory) : Nat → Nat → List Byte
  | _, 0 => []
  | a, count + 1 => m.read a :: Memory.readBytes m (a + 1) count

/-- Every listed address is at least `lo`, below 4096 and rising, and no entry equals the unlisted value. -/
def Memory.wfFrom : Nat → Memory → Bool
  | _, [] => true
  | lo, (a, val) :: m => decide (lo ≤ a) && decide (a < Config.memSize) && (val != Memory.unlisted a) && Memory.wfFrom (a + 1) m

/-- The canonical form. -/
def Memory.wf (m : Memory) : Bool := Memory.wfFrom 0 m

/-- The byte at address `a` of a state's memory. -/
def State.byte (s : State) (a : Nat) : Byte := s.mem.read a

/-- The state with bytes stored from address `a` on. -/
def State.storeBytes (s : State) (a : Nat) (bytes : List Byte) : State := { s with mem := s.mem.writeBytes a bytes }

/-! ### Taking a fault, and the resets that leave it -/

/-- R152: fault entry. `s` is the state before the step, with `pc` at the faulting instruction: nothing of it changes but the
latch. -/
def raise (cause : FaultCause) (info : Word) (s : State) : Result := .next { s with fault := some ⟨cause, info⟩ }

/-- R151: the cause codes. -/
def FaultCause.code : FaultCause → Nat
  | .fetchOutOfRange => 1
  | .dataReadOutOfRange => 2
  | .dataWriteOutOfRange => 3
  | .stackOverflow => 4
  | .stackUnderflow => 5
  | .keyIndexOutOfRange => 6

/-- R153: there is no return from a fault but a reset. R181: warm reset, as a host operation; memory keeps its contents, and
so do the host's inputs and the event trace, which are no state of the core (log 3). -/
def State.warmReset (s : State) : State :=
  { State.reset with
    mem := s.mem, stepsPerTick := s.stepsPerTick, rndIndex := s.rndIndex, events := s.events, host := s.host }

/-- R180: power-on reset applied again between steps; it also rewrites all 4096 bytes. -/
def State.powerOnReset (s : State) : State :=
  { State.reset with
    stepsPerTick := s.stepsPerTick, rndIndex := s.rndIndex, events := s.events, host := s.host }

/-! ### Range checks (R45, R126) -/

/-- The `count` bytes from `b` on exist; no byte needs no check (R131 corner case a). Addresses are unbounded integers. -/
abbrev RangeInMemory (b count : Nat) : Prop := count = 0 ∨ b + (count - 1) ≤ 4095

/-- R151: the first address of the range above 4095, `max(I, 4096)`. -/
def firstOutside (b : Word) : Word := BitVec.ofNat 16 (max b.toNat 4096)

/-- R45: a data transfer of `count` bytes through `I` checks its whole range before any access; outside it faults. -/
def guardRange (cause : FaultCause) (count : Nat) (s done : State) : Result :=
  if RangeInMemory s.index.toNat count then .next done else raise cause (firstOutside s.index) s

/-! ### Fetch, advance, skip -/

/-- R42, R81: the word at `pc`; none when a byte of it lies above 4095 (R45 a). No alignment check (R44). -/
def fetch (s : State) : Option Word :=
  if 4095 ≤ s.pc.toNat then none else some (wordOfBytes (s.byte s.pc.toNat) (s.byte (s.pc.toNat + 1)))

/-- R82: `pc <- pc + 2`, before execution. -/
def State.advance (s : State) : State := { s with pc := s.pc + 2 }

/-- The state with `pc` at `target`. -/
def State.jump (s : State) (target : Word) : State := { s with pc := target }

/-- R98: a skip adds 2 to the advanced `pc` if its condition holds. -/
def State.skipIf (s : State) (taken : Bool) : State := if taken then { s with pc := s.pc + 2 } else s

/-! ### The return stack (R24, R25) -/

/-- R92: push a return address; none when the stack is full. -/
def State.push (s : State) (ret : Word) : Option State :=
  if h : s.sp.val < 16 then
    some { s with stack := s.stack.set s.sp.val ret h, sp := ⟨s.sp.val + 1, by omega⟩ }
  else none

/-- R90: pop a return address; none when the stack is empty. The entry keeps its value (R24). -/
def State.pop (s : State) : Option (Word × State) :=
  if h : 0 < s.sp.val then
    some (s.stack[s.sp.val - 1]'(by omega), { s with sp := ⟨s.sp.val - 1, by omega⟩ })
  else none

/-! ### The random byte (R111, R167) -/

/-- The byte this draw gives, a free value, and the state in which it is drawn. -/
def State.drawRandom (s : State) : Byte × State := (Config.rnd s.rndIndex, { s with rndIndex := s.rndIndex + 1 })

/-! ### The tick phase (R158) and the end of a completing step -/

/-- R158: a timer counts down to 0 and stays there. -/
def countDown (t : Byte) : Byte := if t = 0 then 0 else t - 1

/-- R158, phase 5 of every completing step. -/
def tick (s : State) : State :=
  if s.stepsPerTick ≤ s.tickCount + 1 then
    { s with tickCount := 0, dt := countDown s.dt, st := countDown s.st }
  else { s with tickCount := s.tickCount + 1 }

/-- R80, R31: the end of a completing step: `opcode` holds the fetched word, and the tick phase runs. -/
def finishStep (op : Word) (s : State) : State := tick { s with opcode := op }

/-- R85: an unrecognised word advances `pc` and emits its event. -/
def unknownOpcode (op : Word) (s : State) : State := { s.advance with events := ⟨s.pc, op⟩ :: s.events }

/-- R80, R152: what a step makes of its instruction's outcome: a fault ends the step as it is, discarding fetch and advance
and without tick; otherwise the step completes. -/
def endInstruction (op : Word) : Result → Result
  | .next t => .next (if t.fault.isSome then t else finishStep op t)
  | .fault r => .fault r
  | .refused r => .refused r

/-! ### The host's operations (R162) and what it can observe -/

/-- R163, R183: the loader's verdict on a program. -/
inductive LoadVerdict where
  | accepted
  | romTooLarge
  | romReadIncomplete
  deriving DecidableEq, Repr

/-- R163, R183: fewer bytes than the byte source reported are incomplete, which "is settled before load" (log 24);
more than 3584 are too many. -/
def loadVerdict (reported : Nat) (bytes : List Byte) : LoadVerdict :=
  if bytes.length < reported then .romReadIncomplete
  else if Config.progMax < bytes.length then .romTooLarge
  else .accepted

/-- R183: an accepted program is copied to 0x200 on, a rejected one changes nothing. -/
def State.loadProgram (s : State) (reported : Nat) (bytes : List Byte) : State :=
  match loadVerdict reported bytes with
  | .accepted => s.storeBytes Config.progBase bytes
  | .romTooLarge | .romReadIncomplete => s

/-- R162: what one host operation does to the state; of a step request, the input it presents (R89, log 4), before the step
itself (`performHostOp`). -/
def hostOp (o : HostOp) (s : State) : State :=
  match o with
  | .powerOnReset => s.powerOnReset
  | .warmReset => s.warmReset
  | .loadProgram reported bytes => s.loadProgram reported bytes
  | .setKey k pressed => { s with keypad := s.keypad.set k.val pressed k.isLt }
  | .clearDrawFlag => { s with drawFlag := false }
  | .requestStep n | .setStepsPerTick n => { s with stepsPerTick := n }

/-- Whether a host operation is a step request. -/
def asksForStep (o : HostOp) : Bool :=
  match o with
  | .requestStep _ => true
  | .powerOnReset | .warmReset | .loadProgram _ _ | .setKey _ _ | .clearDrawFlag | .setStepsPerTick _ => false

/-- R159: `sound_active`. -/
def State.soundActive (s : State) : Bool := s.st != 0

/-- The pixel at column `c`, row `r` (R29); off the buffer there is none. -/
def pixelOf (video : Vector PixelRow 32) (c r : Nat) : Bool :=
  if h : c < 64 ∧ r < 32 then (video[r]'h.2).getLsbD c else false

/-- The pixel at column `c`, row `r` of a state's frame buffer. -/
def State.pixel (s : State) (c r : Nat) : Bool := pixelOf s.video c r

/-- R29, R162: cell `k` of the frame buffer as the host reads it, 0 or 1. -/
def State.cell (s : State) (k : Nat) : Nat := if s.pixel (k % 64) (k / 64) then 1 else 0

/-- R162: `frame_buffer()`, the 2048 cells. -/
def State.frameBuffer (s : State) : List Nat := (List.range 2048).map s.cell

/-! ### Placing an instruction where the next step fetches it -/

/-- `s` made ready to run the word `op` next: the word at `pc` (at 0x200 if no word fits there), no host operation pending,
the core not halted and `steps_per_tick` usable. -/
def State.placeWord (s : State) (op : Word) : State :=
  let at_ : Word := if s.pc.toNat ≤ 4094 then s.pc else 0x200
  { s with
    pc := at_
    mem := s.mem.writeBytes at_.toNat (bytesOfWord op)
    fault := none
    stepsPerTick := if s.stepsPerTick = 0 then Config.baseStepsPerTick else s.stepsPerTick
    host := [] }

end Sys2Proof.Machine
end

