-- ==== Sys2Proof/Machine/Operands.lean ====
section
/-! DEFINITION. Reading and writing operands: the general registers (10_state.md R20), the key latches (R28), the glyph address
(43_index_memory.md R122), the decimal digits (R123) and the register ranges of R124 and R125. -/

namespace Sys2Proof.Machine

/-- `V[k]` (R10). No register is hardwired (R20). -/
def State.reg (s : State) (k : Reg) : Byte := s.v[k.val]

/-- `V[k] <- val` (R10). -/
def State.setReg (s : State) (k : Reg) (val : Byte) : State := { s with v := s.v.set k.val val k.isLt }

/-- `I <- addr` (R23). -/
def State.setIndex (s : State) (addr : Word) : State := { s with index := addr }

/-- `DT <- val` (R26). -/
def State.setDelay (s : State) (val : Byte) : State := { s with dt := val }

/-- `ST <- val` (R27). -/
def State.setSound (s : State) (val : Byte) : State := { s with st := val }

/-- `V[0]` to `V[x]`, `x + 1` values (R124). -/
def State.regsUpTo (s : State) (x : Reg) : List Byte := s.v.toList.take (x.val + 1)

/-- R125: `V[k] <- mem[b + k]` for `k = 0 .. x`; the others keep their values. -/
def State.loadRegs (s : State) (x : Reg) (b : Nat) : State :=
  { s with v := Vector.ofFn fun k : Fin 16 => if k.val ≤ x.val then s.byte (b + k.val) else s.v[k.val] }

/-- R122: the base of the glyph `val`; the whole byte is multiplied, 0 to 1275. -/
def glyphAddress (val : Byte) : Word := BitVec.ofNat 16 (Config.glyphLen * val.toNat)

/-- R123: hundreds, tens, ones, one digit per byte. -/
def decimalDigits (val : Byte) : List Byte :=
  [BitVec.ofNat 8 (val.toNat / 100), BitVec.ofNat 8 (val.toNat / 10 % 10), BitVec.ofNat 8 (val.toNat % 10)]

/-- R142: the least pressed key. -/
def State.lowestKey (s : State) : Option Reg := (List.finRange 16).find? fun k => s.keypad[k.val]

/-- R140, R141: the latch that the whole byte `val` selects; none above 15 (it is not masked). -/
def State.keyAt (s : State) (val : Byte) : Option Bool := if h : val.toNat < 16 then some s.keypad[val.toNat] else none

end Sys2Proof.Machine
end

