-- ==== Sys2Proof/Machine/Flags.lean ====
section
/-! DEFINITION. The flag outputs of 10_state.md R21 and the order in which result and flag are written (42_alu.md R112). -/

namespace Sys2Proof.Machine

/-- R21: a flag is written as the full byte 0x00 or 0x01. -/
def flagByte (b : Bool) : Byte := if b then 1 else 0

/-- R106: carry out of `p + q`, on the wide sum 0 to 510. -/
def carryOut (p q : Byte) : Bool := decide (255 < p.toNat + q.toNat)

/-- R107, R109, R113: no borrow in `p - q`; equal operands do not borrow (decision D10, log 14). -/
def notBorrow (p q : Byte) : Bool := decide (q.toNat ≤ p.toNat)

/-- R108: the bit a right shift moves out, `v[0]`. -/
def shiftedOutRight (p : Byte) : Bool := p.getLsbD 0

/-- R110: the bit a left shift moves out, `v[7]`. -/
def shiftedOutLeft (p : Byte) : Bool := p.getLsbD 7

/-- R112: `V[x]` is written first, then `V[15]`; with `x = 15` the flag remains (decision D9, log 13). -/
def State.setRegAndFlag (s : State) (x : Reg) (result : Byte) (flag : Bool) : State :=
  (s.setReg x result).setReg Config.flagReg (flagByte flag)

end Sys2Proof.Machine
end

