-- ==== Sys2Proof/Machine/Alu.lean ====
section
/-! DEFINITION. Register load, arithmetic, logic, shift and random instructions (42_alu.md). Each reads its sources, then writes
`V[x]`, then (five of them) the flag (R112); none can fault. -/

namespace Sys2Proof.Machine

/-- R100 `6xnn`. -/
def execLdImm (x : Reg) (nn : Byte) (s : State) : Result := .next (s.advance.setReg x nn)

/-- R101 `7xnn`: modulo 256, no flag. -/
def execAddImm (x : Reg) (nn : Byte) (s : State) : Result := .next (s.advance.setReg x (s.reg x + nn))

/-- R102 `8xy0` (decision D5, log 11). -/
def execLdReg (x y : Reg) (s : State) : Result := .next (s.advance.setReg x (s.reg y))

/-- R103 `8xy1`; no flag (decision D7, log 12). -/
def execOr (x y : Reg) (s : State) : Result := .next (s.advance.setReg x (s.reg x ||| s.reg y))

/-- R104 `8xy2`; no flag (decision D7, log 12). -/
def execAnd (x y : Reg) (s : State) : Result := .next (s.advance.setReg x (s.reg x &&& s.reg y))

/-- R105 `8xy3`; no flag (decision D7, log 12). -/
def execXor (x y : Reg) (s : State) : Result := .next (s.advance.setReg x (s.reg x ^^^ s.reg y))

/-- R106 `8xy4`: carry out; the old `V[15]` is not added in. -/
def execAddReg (x y : Reg) (s : State) : Result :=
  .next (s.advance.setRegAndFlag x (s.reg x + s.reg y) (carryOut (s.reg x) (s.reg y)))

/-- R107 `8xy5`. -/
def execSub (x y : Reg) (s : State) : Result :=
  .next (s.advance.setRegAndFlag x (s.reg x - s.reg y) (notBorrow (s.reg x) (s.reg y)))

/-- R108 `8xy6`: `V[x]` in place; `y` is ignored (decision D8, log 23). -/
def execShr (x _y : Reg) (s : State) : Result :=
  .next (s.advance.setRegAndFlag x (s.reg x >>> 1) (shiftedOutRight (s.reg x)))

/-- R109 `8xy7`. -/
def execSubn (x y : Reg) (s : State) : Result :=
  .next (s.advance.setRegAndFlag x (s.reg y - s.reg x) (notBorrow (s.reg y) (s.reg x)))

/-- R110 `8xyE`: `V[x]` in place; `y` is ignored (decision D8, log 23). -/
def execShl (x _y : Reg) (s : State) : Result :=
  .next (s.advance.setRegAndFlag x (s.reg x <<< 1) (shiftedOutLeft (s.reg x)))

/-- R111 `Cxnn`: the random byte is a free value (log 2). -/
def execRnd (x : Reg) (nn : Byte) (s : State) : Result :=
  .next (s.drawRandom.2.advance.setReg x (s.drawRandom.1 &&& nn))

end Sys2Proof.Machine
end

