-- ==== Sys2Proof/Machine/Control.lean ====
section
/-! DEFINITION. The control transfer instructions (41_control_transfer.md). Every meaning is given the state with `pc` at the
instruction, and does phases 2 and 4 of the step (40_step_cycle.md R80): advance, then execute. A fault leaves that state
as it is but for the latch (60_exceptions.md R152). -/

namespace Sys2Proof.Machine

/-- R90 `00EE`. -/
def execRet (s : State) : Result :=
  match s.advance.pop with
  | some (target, t) => .next (t.jump target)
  | none => raise .stackUnderflow s.pc s

/-- R91 `1nnn`. -/
def execJp (nnn : Word) (s : State) : Result := .next (s.advance.jump nnn)

/-- R92 `2nnn`: the advanced `pc` is pushed. -/
def execCall (nnn : Word) (s : State) : Result :=
  match s.advance.push s.advance.pc with
  | some t => .next (t.jump nnn)
  | none => raise .stackOverflow s.pc s

/-- R93 `3xnn`. -/
def execSeImm (x : Reg) (nn : Byte) (s : State) : Result := .next (s.advance.skipIf (s.reg x == nn))

/-- R94 `4xnn`. -/
def execSneImm (x : Reg) (nn : Byte) (s : State) : Result := .next (s.advance.skipIf (s.reg x != nn))

/-- R95 `5xy0`. -/
def execSeReg (x y : Reg) (s : State) : Result := .next (s.advance.skipIf (s.reg x == s.reg y))

/-- R96 `9xy0`. -/
def execSneReg (x y : Reg) (s : State) : Result := .next (s.advance.skipIf (s.reg x != s.reg y))

/-- R97 `Bnnn`: the sum is not reduced, 0 to 0x10FE. -/
def execJpV0 (nnn : Word) (s : State) : Result := .next (s.advance.jump (nnn + (s.reg 0).setWidth 16))

end Sys2Proof.Machine
end

