-- ==== Sys2Proof/Machine/Display.lean ====
section
/-! DEFINITION. The frame buffer instructions (44_display.md): clearing, and drawing a sprite with exclusive OR, clipping and the
collision flag. -/

namespace Sys2Proof.Machine

/-- A frame buffer being drawn on, and whether a set pixel was turned off so far. -/
structure Drawing where
  video : Vector PixelRow 32
  hit : Bool
  deriving DecidableEq, Repr

/-- R131: toggle the pixel at column `c`, row `r`. A pixel off the buffer is discarded, each coordinate by itself (decision
D13, log 16), and never collides. -/
def Drawing.toggle (d : Drawing) (c r : Nat) : Drawing :=
  if h : c ≤ 63 ∧ r ≤ 31 then
    { video := d.video.set r (d.video[r] ^^^ BitVec.twoPow 64 c) (by omega)
      hit := d.hit || d.video[r].getLsbD c }
  else d

/-- R131, R133: one sprite row, `bits` at row `r` from column `x0` on; bit 7 is the leftmost pixel. -/
def Drawing.drawRow (d : Drawing) (bits : Byte) (x0 r : Nat) : Drawing :=
  (List.range 8).foldl (fun d c => if bits.getLsbD (7 - c) then d.toggle (x0 + c) r else d) d

/-- R131: the rows of a sprite, top row first. -/
def Drawing.drawRows : Drawing → List Byte → Nat → Nat → Drawing
  | d, [], _, _ => d
  | d, bits :: rows, x0, r => Drawing.drawRows (d.drawRow bits x0 r) rows x0 (r + 1)

/-- The frame buffer after a drawing instruction; `draw_flag` is set by every one that completes (R30; decision D14, log 17). -/
def State.setVideo (s : State) (video : Vector PixelRow 32) : State := { s with video := video, drawFlag := true }

/-- R131: the drawing that `Dxyn` makes: `n` rows from `mem[I..]`, origin `(V[x] mod 64, V[y] mod 32)`. -/
def State.drawSprite (s : State) (x y : Reg) (n : Nat) : Drawing :=
  Drawing.drawRows ⟨s.video, false⟩ (s.mem.readBytes s.index.toNat n)
    ((s.reg x).toNat % Config.vidW) ((s.reg y).toNat % Config.vidH)

/-- R130 `00E0`. -/
def execCls (s : State) : Result := .next (s.advance.setVideo (Vector.replicate 32 0))

/-- R131 `Dxyn`: all `n` bytes are range-checked before anything is drawn. -/
def execDrw (x y : Reg) (n : Nat) (s : State) : Result :=
  guardRange .dataReadOutOfRange n s
    ((s.advance.setVideo (s.drawSprite x y n).video).setReg Config.flagReg (flagByte (s.drawSprite x y n).hit))

end Sys2Proof.Machine
end

