-- ==== Sys2Proof/Machine/IndexMemory.lean ====
section
/-! DEFINITION. Index register and memory transfer instructions (43_index_memory.md). A transfer checks its whole range first
(R126) and none writes a flag. -/

namespace Sys2Proof.Machine

/-- R120 `Annn`. -/
def execLdI (nnn : Word) (s : State) : Result := .next (s.advance.setIndex nnn)

/-- R121 `Fx1E`: modulo 65536, no flag (decision D17, log 19). -/
def execAddI (x : Reg) (s : State) : Result := .next (s.advance.setIndex (s.index + (s.reg x).setWidth 16))

/-- R122 `Fx29`. -/
def execLdF (x : Reg) (s : State) : Result := .next (s.advance.setIndex (glyphAddress (s.reg x)))

/-- R123 `Fx33`: three bytes, `I` unchanged. -/
def execLdB (x : Reg) (s : State) : Result :=
  guardRange .dataWriteOutOfRange 3 s (s.advance.storeBytes s.index.toNat (decimalDigits (s.reg x)))

/-- R124 `Fx55`: `x + 1` bytes, then `I <- I + x + 1`. -/
def execStRegs (x : Reg) (s : State) : Result :=
  guardRange .dataWriteOutOfRange (x.val + 1) s
    ((s.advance.storeBytes s.index.toNat (s.regsUpTo x)).setIndex (s.index + BitVec.ofNat 16 (x.val + 1)))

/-- R125 `Fx65`: `x + 1` bytes, then `I <- I + x + 1`. -/
def execLdRegs (x : Reg) (s : State) : Result :=
  guardRange .dataReadOutOfRange (x.val + 1) s
    ((s.advance.loadRegs x s.index.toNat).setIndex (s.index + BitVec.ofNat 16 (x.val + 1)))

end Sys2Proof.Machine
end

