-- ==== Sys2Proof/Machine/KeysTimers.lean ====
section
/-! DEFINITION. Key and timer instructions (45_keypad_timers.md). The assignment of the three timer words is R146 (log 15). -/

namespace Sys2Proof.Machine

/-- R140 `Ex9E`: the whole byte is the key index; above 15 it faults. -/
def execSkp (x : Reg) (s : State) : Result :=
  match s.keyAt (s.reg x) with
  | some pressed => .next (s.advance.skipIf pressed)
  | none => raise .keyIndexOutOfRange ((s.reg x).setWidth 16) s

/-- R141 `ExA1`. -/
def execSknp (x : Reg) (s : State) : Result :=
  match s.keyAt (s.reg x) with
  | some pressed => .next (s.advance.skipIf !pressed)
  | none => raise .keyIndexOutOfRange ((s.reg x).setWidth 16) s

/-- R143 `Fx07`. -/
def execLdVxDt (x : Reg) (s : State) : Result := .next (s.advance.setReg x s.dt)

/-- R142 `Fx0A`: the least pressed key; with none pressed the advanced `pc` goes back by 2 and the instruction repeats. -/
def execLdVxK (x : Reg) (s : State) : Result :=
  match s.lowestKey with
  | some k => .next (s.advance.setReg x (BitVec.ofNat 8 k.val))
  | none => .next (s.advance.jump (s.advance.pc - 2))

/-- R144 `Fx15`. -/
def execLdDtVx (x : Reg) (s : State) : Result := .next (s.advance.setDelay (s.reg x))

/-- R145 `Fx18`. -/
def execLdStVx (x : Reg) (s : State) : Result := .next (s.advance.setSound (s.reg x))

end Sys2Proof.Machine
end

