-- ==== Sys2Proof/Machine/Cycle.lean ====
section
/-! DEFINITION. The step cycle of the core (40_step_cycle.md R80, R87) and a host operation taking place (60_exceptions.md
R162). -/

namespace Sys2Proof.Machine

/-- R80, phases 1 to 5, for a core that is not halted and a usable `steps_per_tick`. -/
def runStep (s : State) : Host.Outcome State Fault Refusal :=
  match fetch s with
  | none => raise .fetchOutOfRange s.pc s
  | some op =>
    match decode op with
    | .ok i => endInstruction op (exec i s)
    | .error _ => .next (finishStep op (unknownOpcode op s))

/-- R80 phase 0, R87: a halted core ignores a step request. R158: `steps_per_tick = 0` is refused. -/
def coreStep (s : State) : Host.Outcome State Fault Refusal :=
  if s.fault.isSome then .next s
  else if s.stepsPerTick = 0 then .refused .stepsPerTickZero
  else runStep s

/-- R162: a host operation takes place: a step request is one step of the core with the input it presents, every other
operation acts on the state and no step runs. -/
def performHostOp (o : HostOp) (s : State) : Host.Outcome State Fault Refusal :=
  if asksForStep o then coreStep (hostOp o s) else .next (hostOp o s)

end Sys2Proof.Machine
end

