-- ==== Sys2Proof/Machine/Step.lean ====
section
/-! DEFINITION. One step of the machine (40_step_cycle.md R80): the host's next pending operation, or else one step of the
core. -/

namespace Sys2Proof.Machine

/-- R7, R162: the host's next pending operation takes place, a step request among them; when none is pending the host
requests a step with the input it presented last (log 3). -/
def step (s : State) : Host.Outcome State Fault Refusal :=
  match s.host with
  | o :: rest => performHostOp o { s with host := rest }
  | [] => coreStep s

/-- `s` with an instruction's bits stored where the next step fetches it, and nothing in the way of that step (log 9). -/
def State.withFetchWord (s : State) (nbits w : Nat) : State := s.placeWord (tableWord nbits w)

end Sys2Proof.Machine
end

