-- ==== Sys2Proof/Safety.lean ====
section
/-! DEFINITION. What claims about the machine are stated in: when an instruction faults, as the spec tabulates it
(60_exceptions.md R151); what a safe step is; the invariants (10_state.md R37); the obligations on programs
(70_reset_and_hazards.md R187, R189); where a decision of the spec shows that the original software might take
differently (93_implementation_defined.md U4 to U9); and what "everything else is unchanged" means. -/

namespace Sys2Proof.Machine

/-! ### Faults, written from the table of R151 and used by no meaning -/

/-- R151: the record an instruction's fault condition leaves, none where the condition does not hold. -/
def faultOf (i : Instr) (s : State) : Option FaultRecord :=
  match i with
  | .ret => if s.sp.val = 0 then some ⟨.stackUnderflow, s.pc⟩ else none
  | .call _ => if s.sp.val = 16 then some ⟨.stackOverflow, s.pc⟩ else none
  | .skp x | .sknp x =>
    if 15 < (s.reg x).toNat then some ⟨.keyIndexOutOfRange, BitVec.ofNat 16 (s.reg x).toNat⟩ else none
  | .drw _ _ n =>
    if 1 ≤ n ∧ 4095 < s.index.toNat + n - 1 then some ⟨.dataReadOutOfRange, BitVec.ofNat 16 (max s.index.toNat 4096)⟩
    else none
  | .ldRegs x =>
    if 4095 < s.index.toNat + x.val then some ⟨.dataReadOutOfRange, BitVec.ofNat 16 (max s.index.toNat 4096)⟩ else none
  | .ldB _ =>
    if 4095 < s.index.toNat + 2 then some ⟨.dataWriteOutOfRange, BitVec.ofNat 16 (max s.index.toNat 4096)⟩ else none
  | .stRegs x =>
    if 4095 < s.index.toNat + x.val then some ⟨.dataWriteOutOfRange, BitVec.ofNat 16 (max s.index.toNat 4096)⟩ else none
  | .cls | .jp _ | .seImm _ _ | .sneImm _ _ | .seReg _ _ | .ldImm _ _ | .addImm _ _ | .ldReg _ _ | .or _ _ | .and _ _ => none
  | .xor _ _ | .addReg _ _ | .sub _ _ | .shr _ _ | .subn _ _ | .shl _ _ | .sneReg _ _ | .ldI _ | .jpV0 _ | .rnd _ _ => none
  | .ldVxDt _ | .ldVxK _ | .ldDtVx _ | .ldStVx _ | .addI _ | .ldF _ => none

/-! ### Safe steps -/

/-- The core will run an instruction at the next step: no host operation pending (a step the host requests is one from such a
state: `Obligations.RequestedStepIsAStepOfTheCore`), not halted, a usable `steps_per_tick`. -/
def State.Running (s : State) : Prop := s.host = [] ∧ s.fault = none ∧ 1 ≤ s.stepsPerTick

/-- A safe step goes on, and does not halt the core. -/
def SafeStep (s : State) : Prop := ∃ t, step s = .next t ∧ t.fault = none

/-! ### Schedules of the host -/

/-- R7, R162: a schedule of the host, its operations and step requests in the order it chose, taking place one after another. -/
def runSchedule : List HostOp → State → Host.Outcome State Fault Refusal
  | [], s => .next s
  | o :: os, s =>
    match performHostOp o s with
    | .next t => runSchedule os t
    | .fault r => .fault r
    | .refused r => .refused r

/-- `k` steps of the machine, up to the first that answers no next state. -/
def runSteps : Nat → State → Host.Outcome State Fault Refusal
  | 0, s => .next s
  | k + 1, s =>
    match step s with
    | .next t => runSteps k t
    | .fault r => .fault r
    | .refused r => .refused r

/-- An outcome with the host's pending operations put in place. -/
def withPending (rest : List HostOp) : Host.Outcome State Fault Refusal → Host.Outcome State Fault Refusal
  | .next t => .next { t with host := rest }
  | .fault r => .fault r
  | .refused r => .refused r

/-! ### Invariants -/

/-- What every step keeps: memory is in canonical form; `pc` never passes the largest value of R22 (0x10FE), so it never
wraps; and every return address on the stack is some call's `a + 2` (R90), 2 to 4096. -/
structure State.Inv (s : State) : Prop where
  memCanonical : s.mem.wf = true
  pcBound : s.pc.toNat ≤ 0x10FE
  returnAddresses : ∀ k : Fin 16, k.val < s.sp.val → 2 ≤ s.stack[k.val].toNat ∧ s.stack[k.val].toNat ≤ 4096

/-! ### Obligations on programs and on claims -/

/-- R187: what the source requires of `pc` before a fetch, and the hardware does not check. -/
def State.PcAsRequired (s : State) : Prop := s.pc.toNat % 2 = 0 ∧ 0x200 ≤ s.pc.toNat ∧ s.pc.toNat ≤ 4094

/-- The flagged decisions of 93_implementation_defined.md that show in one instruction. -/
inductive OpenPoint where
  | u4   -- a word a looser decoder would execute (R67)
  | u5   -- `V[15]` after a copy or a logic operation
  | u6   -- `x = 15` in a flag-writing instruction
  | u7   -- which register a shift reads
  | u8   -- the flag of a subtraction of equal operands
  | u9   -- a sprite that crosses the right edge
  deriving DecidableEq, Repr

/-- R67: an unrecognised word that a looser decoder would execute: groups (a), (b) and (c). -/
def LooseWord (op : Word) : Prop :=
  (∃ r, decode op = .error r) ∧
    (fieldT op = 5 ∨ fieldT op = 9 ∨ (fieldT op = 0 ∧ (fieldN op = 0 ∨ fieldN op = 0xE)))

/-- The flagged decisions that an instruction exercises in a state. A claim about a program whose steps exercise none of them
(and fetch no `LooseWord`) does not rest on them. -/
def openPoints (i : Instr) (s : State) : List OpenPoint :=
  match i with
  | .ldReg _ _ | .or _ _ | .and _ _ | .xor _ _ => [.u5]
  | .addReg x _ => if x = 15 then [.u6] else []
  | .sub x y | .subn x y => (if x = 15 then [.u6] else []) ++ (if s.reg x = s.reg y then [.u8] else [])
  | .shr x y | .shl x y => (if x = 15 then [.u6] else []) ++ (if x = y then [] else [.u7])
  | .drw x y _ => (if x = 15 ∨ y = 15 then [.u6] else []) ++ (if 56 < (s.reg x).toNat % 64 then [.u9] else [])
  | .cls | .ret | .jp _ | .call _ | .seImm _ _ | .sneImm _ _ | .seReg _ _ | .ldImm _ _ | .addImm _ _ | .sneReg _ _ => []
  | .ldI _ | .jpV0 _ | .rnd _ _ | .skp _ | .sknp _ | .ldVxDt _ | .ldVxK _ | .ldDtVx _ | .ldStVx _ | .addI _ => []
  | .ldF _ | .ldB _ | .stRegs _ | .ldRegs _ => []

/-! ### What an instruction may write, from the lists of 10_state.md -/

/-- R20, R21: the general registers an instruction writes, as its destination or as its flag output. -/
def writesReg (i : Instr) (k : Reg) : Prop :=
  match i with
  | .ldImm x _ | .addImm x _ | .ldReg x _ | .or x _ | .and x _ | .xor x _ | .rnd x _ | .ldVxDt x | .ldVxK x => k = x
  | .addReg x _ | .sub x _ | .shr x _ | .subn x _ | .shl x _ => k = x ∨ k = 15
  | .drw _ _ _ => k = 15
  | .ldRegs x => k.val ≤ x.val
  | .cls | .ret | .jp _ | .call _ | .seImm _ _ | .sneImm _ _ | .seReg _ _ | .sneReg _ _ | .ldI _ | .jpV0 _ => False
  | .skp _ | .sknp _ | .ldDtVx _ | .ldStVx _ | .addI _ | .ldF _ | .ldB _ | .stRegs _ => False

/-- R131, R133: the sprite of `DRW Vx, Vy, n` has a set bit at column `c`, row `r` of the frame buffer: the origin wraps, the
pixels clip, and bit 7 of a row byte is its leftmost pixel. -/
def SpriteCovers (s : State) (x y : Reg) (n c r : Nat) : Prop :=
  (s.reg x).toNat % 64 ≤ c ∧ c < (s.reg x).toNat % 64 + 8 ∧ c ≤ 63 ∧
  (s.reg y).toNat % 32 ≤ r ∧ r < (s.reg y).toNat % 32 + n ∧ r ≤ 31 ∧
  (s.byte (s.index.toNat + (r - (s.reg y).toNat % 32))).getLsbD (7 - (c - (s.reg x).toNat % 64)) = true

/-! ### Frames

Each says that `t` agrees with `s` on every element of the state but the named ones, and on every byte of memory. -/

/-- Every byte of memory reads as before. -/
def SameBytes (s t : State) : Prop := ∀ a, t.byte a = s.byte a

/-- Only `pc` may differ. -/
def FramePc (s t : State) : Prop := t = { s with pc := t.pc } ∧ SameBytes s t

/-- Only `V` and `pc` may differ. -/
def FrameRegs (s t : State) : Prop := t = { s with v := t.v, pc := t.pc } ∧ SameBytes s t

/-- Only `V[x]` and `pc` may differ. -/
def FrameReg (x : Reg) (s t : State) : Prop := FrameRegs s t ∧ ∀ k, k ≠ x → t.reg k = s.reg k

/-- Only `V[x]`, `V[15]` and `pc` may differ. -/
def FrameRegFlag (x : Reg) (s t : State) : Prop := FrameRegs s t ∧ ∀ k, k ≠ x → k ≠ 15 → t.reg k = s.reg k

/-- Only `I` and `pc` may differ. -/
def FrameIndex (s t : State) : Prop := t = { s with index := t.index, pc := t.pc } ∧ SameBytes s t

/-- Only the stack, `sp` and `pc` may differ. -/
def FrameStack (s t : State) : Prop := t = { s with stack := t.stack, sp := t.sp, pc := t.pc } ∧ SameBytes s t

end Sys2Proof.Machine
end

