-- ==== Sys2Proof/Certificates/Slice0/Obligations.lean ====
section
/-! DEFINITION. The statements for the provers, from the numbered rules of spec/. Where a rule is the spec's own decision (a "D" of
92_eei_decisions.md) the docstring names it. -/

open Sys2Proof Sys2Proof.Machine

/-! ### Encoding -/

/-- 30_encoding.md R65: ten words of eight families, written out from the table, decode to their instructions, and three
look-alikes to none: F0FF by the dispatch of R66, 01E0 and 5AB1 because every fixed digit is checked (decision D4, log 10). That
digit E of family 8 is SHL is decision D6 (log 11). -/
def Obligations.SampleWordsDecode : Prop :=
  decode 0x00E0 = .ok .cls ∧ decode 0x00EE = .ok .ret ∧ decode 0x1ABC = .ok (.jp 0xABC) ∧
  decode 0x3A42 = .ok (.seImm 10 0x42) ∧ decode 0x8124 = .ok (.addReg 1 2) ∧ decode 0x8F1E = .ok (.shl 15 1) ∧
  decode 0xA2F0 = .ok (.ldI 0x2F0) ∧ decode 0xD125 = .ok (.drw 1 2 5) ∧ decode 0xE3A1 = .ok (.sknp 3) ∧
  decode 0xF265 = .ok (.ldRegs 2) ∧ decode 0x01E0 = .error (.unrecognised0 0x01E0) ∧
  decode 0x5AB1 = .error (.unrecognised5 0x5AB1) ∧ decode 0xF0FF = .error (.unrecognisedF 0xF0FF)

/-- R61, R63, R65: no bit of an encoding is dropped: every well-formed instruction comes back from its word. -/
def Obligations.DecodeOfEncode : Prop :=
  ∀ i : Instr, i.WellFormed → decode (encode i) = .ok i

/-- R64: every word has one meaning: a decoded instruction is well-formed and its word is the one it came from. This holds because
every fixed digit is checked (decision D4, log 10). -/
def Obligations.EncodeOfDecode : Prop :=
  ∀ (op : Word) (i : Instr), decode op = .ok i → i.WellFormed ∧ encode i = op

/-- R64, R65, R66 (strictness: decision D4): the decoder accepts a word exactly when a row of the opcode map fits it, that row is the
only one, and it bears the instruction's name. -/
def Obligations.DecoderFollowsOpcodeTable : Prop :=
  ∀ op : Word, (opcodeTable.filter (·.fits op)).map (·.mnemonic) =
    match decode op with
    | .ok i => [i.mnemonic]
    | .error _ => []

/-! ### The step -/

/-- 20_memory.md R42: fetch is big-endian, at every `pc` whose two bytes exist, odd ones and those below 0x200 included (R44,
decision D15, log 18). -/
def Obligations.FetchIsBigEndian : Prop :=
  ∀ s : State, s.pc.toNat ≤ 4094 →
    ∃ op, fetch s = some op ∧ op.extractLsb' 8 8 = s.byte s.pc.toNat ∧ op.extractLsb' 0 8 = s.byte (s.pc.toNat + 1)

/-- 40_step_cycle.md R80: a step runs the instruction that the bytes at `pc` decode to. Around `exec`, which does the advance
and the execute phase, it latches `opcode` and runs the tick phase (that this comes after the instruction, in every completing
step, is decision D20, log 20); a fault ends the step as it is, without latch or tick (decision D2, log 7). -/
def Obligations.StepRunsDecodedInstruction : Prop :=
  ∀ (s : State) (i : Instr), s.Running → s.pc.toNat ≤ 4094 →
    decode (wordOfBytes (s.byte s.pc.toNat) (s.byte (s.pc.toNat + 1))) = .ok i →
    step s =
      match exec i s with
      | .next t =>
        if t.fault = none then
          .next (tick { t with opcode := wordOfBytes (s.byte s.pc.toNat) (s.byte (s.pc.toNat + 1)) })
        else .next t
      | .fault r => .fault r
      | .refused r => .refused r

/-- R85: an unrecognised word advances `pc`, latches `opcode`, ticks, and emits its event (held in `events`, log 6; the event's
payload is decision D26), and nothing else. -/
def Obligations.UnrecognisedWordOnlyAdvances : Prop :=
  ∀ (s : State) (r : Reject), s.Running → s.pc.toNat ≤ 4094 →
    decode (wordOfBytes (s.byte s.pc.toNat) (s.byte (s.pc.toNat + 1))) = .error r →
    step s = .next (tick { s with
      pc := s.pc + 2
      opcode := wordOfBytes (s.byte s.pc.toNat) (s.byte (s.pc.toNat + 1))
      events := ⟨s.pc, wordOfBytes (s.byte s.pc.toNat) (s.byte (s.pc.toNat + 1))⟩ :: s.events })

/-- R45 (a), R151, R152 (decisions D1 to D3): a fetch of a word that does not fit in memory faults with `pc`, and changes nothing
else. -/
def Obligations.FetchBeyondMemoryFaults : Prop :=
  ∀ s : State, s.Running → 4095 ≤ s.pc.toNat → step s = .next { s with fault := some ⟨.fetchOutOfRange, s.pc⟩ }

/-- R87 (decision D2): a halted core ignores a step request. That it does so with `steps_per_tick = 0` too, the halted check coming
before the refusal, is the model's choice (log 8, DEDUCED). -/
def Obligations.HaltedCoreIgnoresSteps : Prop :=
  ∀ s : State, s.host = [] → s.fault ≠ none → step s = .next s

/-- R158 "the core's behaviour for 0 is not defined and a model should refuse it" (the model's choice of where: log 8). -/
def Obligations.ZeroStepsPerTickIsRefused : Prop :=
  ∀ s : State, s.host = [] → s.fault = none → s.stepsPerTick = 0 → step s = .refused .stepsPerTickZero

/-! ### Faults -/

/-- 60_exceptions.md R151, R152 (decisions D1 to D3): an instruction whose condition of R151 holds leaves the state as it was, but for
the latch with the tabulated cause and info; every other instruction in every state answers a next state and leaves the latch. -/
def Obligations.InstructionsFaultExactlyAsTabulated : Prop :=
  ∀ (i : Instr) (s : State),
    match faultOf i s with
    | some r => exec i s = .next { s with fault := some r }
    | none => ∃ t, exec i s = .next t ∧ t.fault = s.fault

/-- R152 (decision D2): faults are precise: a step of the core that changes the latch changes nothing else, not even `opcode`,
`pc` or `tick_count`. -/
def Obligations.FaultingStepChangesOnlyTheLatch : Prop :=
  ∀ s t : State, s.host = [] → step s = .next t → t.fault ≠ s.fault → t = { s with fault := t.fault }

/-- R153 (decision D2): the latch holds the first fault until a reset. -/
def Obligations.LatchHoldsUntilReset : Prop :=
  ∀ (s t : State) (r : FaultRecord), s.fault = some r → step s = .next t →
    t.fault = some r ∨
      (t.fault = none ∧ (s.host.head? = some .warmReset ∨ s.host.head? = some .powerOnReset))

/-! ### ALU instructions -/

/-- 42_alu.md R100: `6xnn` loads the immediate, into `V[15]` as into any register. -/
def Obligations.LoadImmediateResult : Prop :=
  ∀ (x : Reg) (nn : Byte) (s : State),
    decode (BitVec.ofNat 16 (0x6000 + 0x100 * x.val + nn.toNat)) = .ok (.ldImm x nn) ∧
    ∃ t, exec (.ldImm x nn) s = .next t ∧ t.reg x = nn ∧ t.pc = s.pc + 2 ∧ FrameReg x s t

/-- R101: `7xnn` adds modulo 256 and writes no flag. -/
def Obligations.AddImmediateResult : Prop :=
  ∀ (x : Reg) (nn : Byte) (s : State),
    decode (BitVec.ofNat 16 (0x7000 + 0x100 * x.val + nn.toNat)) = .ok (.addImm x nn) ∧
    ∃ t, exec (.addImm x nn) s = .next t ∧ (t.reg x).toNat = ((s.reg x).toNat + nn.toNat) % 256 ∧
      t.pc = s.pc + 2 ∧ FrameReg x s t

/-- R102 to R105: copy, OR, AND and XOR, bit by bit. That `8xy0` copies is decision D5, the digits are D6, and that `V[15]` is
unchanged is D7. -/
def Obligations.CopyAndLogicResults : Prop :=
  ∀ (x y : Reg) (s : State),
    (∃ t, exec (.ldReg x y) s = .next t ∧ t.reg x = s.reg y ∧ t.pc = s.pc + 2 ∧ FrameReg x s t) ∧
    (∃ t, exec (.or x y) s = .next t ∧
      (∀ b, (t.reg x).getLsbD b = ((s.reg x).getLsbD b || (s.reg y).getLsbD b)) ∧ t.pc = s.pc + 2 ∧ FrameReg x s t) ∧
    (∃ t, exec (.and x y) s = .next t ∧
      (∀ b, (t.reg x).getLsbD b = ((s.reg x).getLsbD b && (s.reg y).getLsbD b)) ∧ t.pc = s.pc + 2 ∧ FrameReg x s t) ∧
    (∃ t, exec (.xor x y) s = .next t ∧
      (∀ b, (t.reg x).getLsbD b = ((s.reg x).getLsbD b ^^ (s.reg y).getLsbD b)) ∧ t.pc = s.pc + 2 ∧ FrameReg x s t)

/-- R106, R112: `8xy4` adds modulo 256 and leaves the carry in `V[15]`; with `x = 15` the flag is what remains (decision D9). -/
def Obligations.AddRegisterResult : Prop :=
  ∀ (x y : Reg) (s : State), ∃ t, exec (.addReg x y) s = .next t ∧
    (x ≠ 15 → (t.reg x).toNat = ((s.reg x).toNat + (s.reg y).toNat) % 256) ∧
    (t.reg 15).toNat = (if 255 < (s.reg x).toNat + (s.reg y).toNat then 1 else 0) ∧
    t.pc = s.pc + 2 ∧ FrameRegFlag x s t

/-- R107, R109, R112, R113: the two subtractions modulo 256 and their not-borrow flag, 1 on equal operands (decision D10); with
`x = 15` the flag is what remains (decision D9). -/
def Obligations.SubtractResults : Prop :=
  ∀ (x y : Reg) (s : State),
    (∃ t, exec (.sub x y) s = .next t ∧
      (x ≠ 15 → (t.reg x).toNat = ((s.reg x).toNat + 256 - (s.reg y).toNat) % 256) ∧
      (t.reg 15).toNat = (if (s.reg y).toNat ≤ (s.reg x).toNat then 1 else 0) ∧
      t.pc = s.pc + 2 ∧ FrameRegFlag x s t) ∧
    (∃ t, exec (.subn x y) s = .next t ∧
      (x ≠ 15 → (t.reg x).toNat = ((s.reg y).toNat + 256 - (s.reg x).toNat) % 256) ∧
      (t.reg 15).toNat = (if (s.reg x).toNat ≤ (s.reg y).toNat then 1 else 0) ∧
      t.pc = s.pc + 2 ∧ FrameRegFlag x s t)

/-- R108, R110, R112: the two shifts of `V[x]` in place, whatever `y` is (decision D8), and the bit shifted out; with `x = 15`
that bit is what remains (decision D9). -/
def Obligations.ShiftResults : Prop :=
  ∀ (x y : Reg) (s : State),
    (∃ t, exec (.shr x y) s = .next t ∧
      (x ≠ 15 → (t.reg x).toNat = (s.reg x).toNat / 2) ∧ (t.reg 15).toNat = (s.reg x).toNat % 2 ∧
      t.pc = s.pc + 2 ∧ FrameRegFlag x s t) ∧
    (∃ t, exec (.shl x y) s = .next t ∧
      (x ≠ 15 → (t.reg x).toNat = 2 * (s.reg x).toNat % 256) ∧ (t.reg 15).toNat = (s.reg x).toNat / 128 ∧
      t.pc = s.pc + 2 ∧ FrameRegFlag x s t)

/-- R111, R167: `Cxnn` masks the byte of this draw, whatever byte that is (a free value, log 2), and the next draw is another one. -/
def Obligations.RandomByteResult : Prop :=
  ∀ (x : Reg) (nn : Byte) (s : State), ∃ t, exec (.rnd x nn) s = .next t ∧
    (∀ b, (t.reg x).getLsbD b = ((Config.rnd s.rndIndex).getLsbD b && nn.getLsbD b)) ∧ t.pc = s.pc + 2 ∧
    t.rndIndex = s.rndIndex + 1 ∧ (∀ k, k ≠ x → t.reg k = s.reg k) ∧
    t = { s with v := t.v, pc := t.pc, rndIndex := t.rndIndex } ∧ SameBytes s t

/-! ### Control transfer instructions -/

/-- 41_control_transfer.md R91, R97: the two jumps. `Bnnn` adds `V[0]` and does not reduce the sum. -/
def Obligations.JumpResults : Prop :=
  ∀ (nnn : Word) (s : State), nnn.toNat ≤ 0xFFF →
    (∃ t, exec (.jp nnn) s = .next t ∧ t.pc = nnn ∧ FramePc s t) ∧
    (∃ t, exec (.jpV0 nnn) s = .next t ∧ t.pc.toNat = nnn.toNat + (s.reg 0).toNat ∧ FramePc s t)

/-- R92: a call with a free slot pushes the address after it and jumps. -/
def Obligations.CallResult : Prop :=
  ∀ (nnn : Word) (s : State), s.sp.val < 16 →
    ∃ t, exec (.call nnn) s = .next t ∧ t.pc = nnn ∧ t.sp.val = s.sp.val + 1 ∧
      (∀ k : Fin 16, t.stack[k.val] = if k.val = s.sp.val then s.pc + 2 else s.stack[k.val]) ∧ FrameStack s t

/-- R90, R24: a return with an entry to pop goes to it and leaves the entry in place. -/
def Obligations.ReturnResult : Prop :=
  ∀ s : State, 0 < s.sp.val →
    ∃ t, exec .ret s = .next t ∧ t.sp.val = s.sp.val - 1 ∧ t.stack = s.stack ∧
      (∀ k : Fin 16, k.val + 1 = s.sp.val → t.pc = s.stack[k.val]) ∧ FrameStack s t

/-- R93, R94 (and R98): the skips on an immediate, their encodings included. -/
def Obligations.ImmediateSkipResults : Prop :=
  ∀ (x : Reg) (nn : Byte) (s : State),
    decode (BitVec.ofNat 16 (0x3000 + 0x100 * x.val + nn.toNat)) = .ok (.seImm x nn) ∧
    decode (BitVec.ofNat 16 (0x4000 + 0x100 * x.val + nn.toNat)) = .ok (.sneImm x nn) ∧
    (∃ t, exec (.seImm x nn) s = .next t ∧ t.pc = (if s.reg x = nn then s.pc + 4 else s.pc + 2) ∧ FramePc s t) ∧
    (∃ t, exec (.sneImm x nn) s = .next t ∧ t.pc = (if s.reg x = nn then s.pc + 2 else s.pc + 4) ∧ FramePc s t)

/-- R95, R96, R98: the skips on a register. -/
def Obligations.RegisterSkipResults : Prop :=
  ∀ (x y : Reg) (s : State),
    (∃ t, exec (.seReg x y) s = .next t ∧ t.pc = (if s.reg x = s.reg y then s.pc + 4 else s.pc + 2) ∧ FramePc s t) ∧
    (∃ t, exec (.sneReg x y) s = .next t ∧ t.pc = (if s.reg x = s.reg y then s.pc + 2 else s.pc + 4) ∧ FramePc s t)

/-- R90, R92, R24: a return after a call goes on behind the call and gives `sp` back; the one stack entry it used keeps the return
address, and every other entry, above `sp` or below, is as before. -/
def Obligations.CallThenReturnRoundTrip : Prop :=
  ∀ (nnn : Word) (s : State), s.sp.val < 16 →
    ∃ t u, exec (.call nnn) s = .next t ∧ exec .ret t = .next u ∧ u.pc = s.pc + 2 ∧ u.sp = s.sp ∧
      (∀ k : Fin 16, u.stack[k.val] = if k.val = s.sp.val then s.pc + 2 else s.stack[k.val]) ∧ FrameStack s u

/-! ### Index register and memory transfer -/

/-- 43_index_memory.md R120: `Annn`. -/
def Obligations.LoadIndexResult : Prop :=
  ∀ (nnn : Word) (s : State), nnn.toNat ≤ 0xFFF →
    decode (BitVec.ofNat 16 (0xA000 + nnn.toNat)) = .ok (.ldI nnn) ∧
    ∃ t, exec (.ldI nnn) s = .next t ∧ t.index = nnn ∧ t.pc = s.pc + 2 ∧ FrameIndex s t

/-- R121: `Fx1E` adds to `I` modulo 65536 (decision D17) and writes no flag. -/
def Obligations.AddIndexResult : Prop :=
  ∀ (x : Reg) (s : State), ∃ t, exec (.addI x) s = .next t ∧
    t.index.toNat = (s.index.toNat + (s.reg x).toNat) % 65536 ∧ t.pc = s.pc + 2 ∧ FrameIndex s t

/-- R122: `Fx29` multiplies the whole byte by 5. -/
def Obligations.GlyphAddressResult : Prop :=
  ∀ (x : Reg) (s : State),
    decode (BitVec.ofNat 16 (0xF029 + 0x100 * x.val)) = .ok (.ldF x) ∧
    ∃ t, exec (.ldF x) s = .next t ∧ t.index.toNat = 5 * (s.reg x).toNat ∧ t.pc = s.pc + 2 ∧ FrameIndex s t

/-- R123, R45, R126: `Fx33` with its three bytes in memory stores the decimal digits at `I` and changes no other byte. Where they
are not, it faults: `InstructionsFaultExactlyAsTabulated`. -/
def Obligations.DecimalStoreResult : Prop :=
  ∀ (x : Reg) (s : State), s.index.toNat + 2 ≤ 4095 →
    ∃ t, exec (.ldB x) s = .next t ∧
      (t.byte s.index.toNat).toNat ≤ 2 ∧ (t.byte (s.index.toNat + 1)).toNat ≤ 9 ∧ (t.byte (s.index.toNat + 2)).toNat ≤ 9 ∧
      100 * (t.byte s.index.toNat).toNat + 10 * (t.byte (s.index.toNat + 1)).toNat + (t.byte (s.index.toNat + 2)).toNat =
        (s.reg x).toNat ∧
      (∀ a, a < s.index.toNat ∨ s.index.toNat + 3 ≤ a → t.byte a = s.byte a) ∧
      t.pc = s.pc + 2 ∧ t = { s with mem := t.mem, pc := t.pc }

/-- R124, R45, R126: `Fx55` with its bytes in memory stores `V[0]` to `V[x]` at `I`, changes no other byte, and moves `I` on. -/
def Obligations.StoreRegistersResult : Prop :=
  ∀ (x : Reg) (s : State), s.index.toNat + x.val ≤ 4095 →
    ∃ t, exec (.stRegs x) s = .next t ∧
      (∀ k : Reg, k.val ≤ x.val → t.byte (s.index.toNat + k.val) = s.reg k) ∧
      (∀ a, a < s.index.toNat ∨ s.index.toNat + x.val + 1 ≤ a → t.byte a = s.byte a) ∧
      t.index.toNat = s.index.toNat + x.val + 1 ∧ t.pc = s.pc + 2 ∧
      t = { s with mem := t.mem, index := t.index, pc := t.pc }

/-- R125, R45, R126: `Fx65` with its bytes in memory loads `V[0]` to `V[x]` from `I`, leaves the other registers and memory, and
moves `I` on. -/
def Obligations.LoadRegistersResult : Prop :=
  ∀ (x : Reg) (s : State), s.index.toNat + x.val ≤ 4095 →
    ∃ t, exec (.ldRegs x) s = .next t ∧
      (∀ k : Reg, t.reg k = if k.val ≤ x.val then s.byte (s.index.toNat + k.val) else s.reg k) ∧
      t.index.toNat = s.index.toNat + x.val + 1 ∧ t.pc = s.pc + 2 ∧
      t = { s with v := t.v, index := t.index, pc := t.pc } ∧ SameBytes s t

/-- R124, R125: registers stored, whatever they are overwritten with, come back when they are loaded from the same `I`. -/
def Obligations.StoreThenLoadRegistersRoundTrip : Prop :=
  ∀ (x : Reg) (s : State) (v' : Vector Byte 16), s.index.toNat + x.val ≤ 4095 →
    ∃ t u, exec (.stRegs x) s = .next t ∧ exec (.ldRegs x) { t with index := s.index, v := v' } = .next u ∧
      (∀ k : Reg, k.val ≤ x.val → u.reg k = s.reg k) ∧ u.index = t.index

/-- 20_memory.md R48, R50: an instruction that `Fx55` stores right behind itself is the next one fetched. -/
def Obligations.StoredWordIsFetchedNext : Prop :=
  ∀ (x : Reg) (s : State), 1 ≤ x.val → s.index.toNat = s.pc.toNat + 2 → s.index.toNat + x.val ≤ 4095 →
    ∃ t, exec (.stRegs x) s = .next t ∧ fetch t = some (wordOfBytes (s.reg 0) (s.reg 1))

/-! ### Frame buffer -/

/-- 44_display.md R130: `00E0` clears every pixel and sets the draw flag, whatever it was; `V[15]` is not written. -/
def Obligations.ClearScreenResult : Prop :=
  decode 0x00E0 = .ok .cls ∧ ∀ s : State, ∃ t, exec .cls s = .next t ∧ (∀ c r, t.pixel c r = false) ∧ (∀ k, t.cell k = 0) ∧ t.drawFlag = true ∧
    t.pc = s.pc + 2 ∧ t = { s with video := t.video, drawFlag := t.drawFlag, pc := t.pc } ∧ SameBytes s t

/-- R131, R133: `Dxyn` with its bytes in memory turns over the pixels under the sprite's set bits (per-coordinate clipping is
decision D13, the bit order D12) and no others, and `V[15]` is 1 exactly when one of them was set, else 0 (also for `n = 0`: D14). -/
def Obligations.DrawSpriteResult : Prop :=
  ∀ (x y : Reg) (n : Nat) (s : State), n = 0 ∨ s.index.toNat + (n - 1) ≤ 4095 →
    ∃ t, exec (.drw x y n) s = .next t ∧
      (∀ c r, SpriteCovers s x y n c r → t.pixel c r = !s.pixel c r) ∧
      (∀ c r, ¬ SpriteCovers s x y n c r → t.pixel c r = s.pixel c r) ∧
      (t.reg 15 = 1 ∨ t.reg 15 = 0) ∧
      (t.reg 15 = 1 ↔ ∃ c r, SpriteCovers s x y n c r ∧ s.pixel c r = true) ∧
      (∀ k, k ≠ 15 → t.reg k = s.reg k) ∧ t.drawFlag = true ∧ t.pc = s.pc + 2 ∧
      t = { s with v := t.v, video := t.video, drawFlag := t.drawFlag, pc := t.pc } ∧ SameBytes s t

/-- R131 corner case (f): the same sprite drawn twice at the same place gives the frame buffer back, and the second draw collides
exactly when the first one set a pixel. (With `x` or `y` = 15 the first draw moves the place.) -/
def Obligations.DrawTwiceRestoresFrameBuffer : Prop :=
  ∀ (x y : Reg) (n : Nat) (s : State), x ≠ 15 → y ≠ 15 → (n = 0 ∨ s.index.toNat + (n - 1) ≤ 4095) →
    ∃ t u, exec (.drw x y n) s = .next t ∧ exec (.drw x y n) t = .next u ∧ u.video = s.video ∧
      (u.reg 15 = 1 ↔ ∃ c r, SpriteCovers s x y n c r ∧ s.pixel c r = false)

/-! ### Keys and timers -/

/-- 45_keypad_timers.md R140, R141, R98: the key skips, for a key that exists. Above 15 they fault:
`InstructionsFaultExactlyAsTabulated`. -/
def Obligations.KeySkipResults : Prop :=
  ∀ (x k : Reg) (s : State), (s.reg x).toNat = k.val →
    (∃ t, exec (.skp x) s = .next t ∧ t.pc = (if s.keypad[k.val] = true then s.pc + 4 else s.pc + 2) ∧ FramePc s t) ∧
    (∃ t, exec (.sknp x) s = .next t ∧ t.pc = (if s.keypad[k.val] = true then s.pc + 2 else s.pc + 4) ∧ FramePc s t)

/-- R142: `Fx0A` takes the least pressed key; with none pressed it changes nothing, `pc` included, so that it runs again. -/
def Obligations.WaitForKeyResult : Prop :=
  ∀ (x : Reg) (s : State), ∃ t, exec (.ldVxK x) s = .next t ∧
    ((∀ k : Reg, s.keypad[k.val] = false) → t = s) ∧
    (∀ k : Reg, s.keypad[k.val] = true → (∀ j : Reg, j.val < k.val → s.keypad[j.val] = false) →
      (t.reg x).toNat = k.val ∧ t.pc = s.pc + 2 ∧ FrameReg x s t)

/-- R143, R144, R145 (which word does what: decision D11): reading `DT`, writing `DT`, writing `ST`. -/
def Obligations.TimerInstructionResults : Prop :=
  ∀ (x : Reg) (s : State),
    (∃ t, exec (.ldVxDt x) s = .next t ∧ t.reg x = s.dt ∧ t.pc = s.pc + 2 ∧ FrameReg x s t) ∧
    (∃ t, exec (.ldDtVx x) s = .next t ∧ t.dt = s.reg x ∧ t.pc = s.pc + 2 ∧ t = { s with dt := t.dt, pc := t.pc } ∧
      SameBytes s t) ∧
    (∃ t, exec (.ldStVx x) s = .next t ∧ t.st = s.reg x ∧ t.pc = s.pc + 2 ∧ t = { s with st := t.st, pc := t.pc } ∧
      SameBytes s t ∧ (t.soundActive = true ↔ s.reg x ≠ 0))

/-- 60_exceptions.md R158 (details: decision D20): the tick phase. -/
def Obligations.TickPhaseResult : Prop :=
  ∀ s : State,
    (s.stepsPerTick ≤ s.tickCount + 1 →
      (tick s).tickCount = 0 ∧ (tick s).dt.toNat = s.dt.toNat - 1 ∧ (tick s).st.toNat = s.st.toNat - 1) ∧
    (s.tickCount + 1 < s.stepsPerTick →
      (tick s).tickCount = s.tickCount + 1 ∧ (tick s).dt = s.dt ∧ (tick s).st = s.st) ∧
    tick s = { s with tickCount := (tick s).tickCount, dt := (tick s).dt, st := (tick s).st }

/-- R158, R32: from a counter of 0, `steps_per_tick` tick phases decrement each nonzero timer exactly once, in the last of them. -/
def Obligations.TickCadence : Prop :=
  ∀ s : State, s.tickCount = 0 → 1 ≤ s.stepsPerTick →
    (∀ k, k < s.stepsPerTick → (tick^[k] s).tickCount = k ∧ (tick^[k] s).dt = s.dt ∧ (tick^[k] s).st = s.st) ∧
    (tick^[s.stepsPerTick] s).tickCount = 0 ∧ (tick^[s.stepsPerTick] s).dt.toNat = s.dt.toNat - 1 ∧
    (tick^[s.stepsPerTick] s).st.toNat = s.st.toNat - 1

/-- R86 (decision D20): the tick phase comes after the instruction of the same step: a timer write is decremented, and a timer
read sees the value before. -/
def Obligations.TickFollowsTheInstruction : Prop :=
  ∀ (x : Reg) (s : State), s.Running → s.pc.toNat ≤ 4094 → s.stepsPerTick ≤ s.tickCount + 1 →
    (decode (wordOfBytes (s.byte s.pc.toNat) (s.byte (s.pc.toNat + 1))) = .ok (.ldDtVx x) →
      ∃ t, step s = .next t ∧ t.dt.toNat = (s.reg x).toNat - 1 ∧ t.st.toNat = s.st.toNat - 1 ∧ t.tickCount = 0) ∧
    (decode (wordOfBytes (s.byte s.pc.toNat) (s.byte (s.pc.toNat + 1))) = .ok (.ldVxDt x) →
      ∃ t, step s = .next t ∧ t.reg x = s.dt ∧ t.dt.toNat = s.dt.toNat - 1 ∧ t.tickCount = 0)

/-- R32: after every completing step `tick_count` is below `steps_per_tick`, also where the host has lowered the threshold to the
counter or below it, because the test is at or above the threshold in every completing step (R158, decision D20, log 20). -/
def Obligations.CompletedStepKeepsTickCountBelow : Prop :=
  ∀ s t : State, s.Running → step s = .next t → t.fault = none → t.tickCount < t.stepsPerTick

/-! ### Resets and the host -/

/-- 70_reset_and_hazards.md R180, 10_state.md R36: power-on reset. `FONT` is the named parameter; nothing is said of its bytes.
`fault <- none` is decision D2; that the host's inputs and the event trace are no state of the core is log 3. -/
def Obligations.PowerOnResetState : Prop :=
  ∀ (s : State) (rest : List HostOp), s.host = .powerOnReset :: rest →
    ∃ t, step s = .next t ∧ (∀ k, t.reg k = 0) ∧ t.pc = 0x200 ∧ t.index = 0 ∧ (∀ k : Fin 16, t.stack[k.val] = 0) ∧
      t.sp = 0 ∧ t.dt = 0 ∧ t.st = 0 ∧ (∀ k : Reg, t.keypad[k.val] = false) ∧ (∀ c r, t.pixel c r = false) ∧
      t.drawFlag = true ∧ t.opcode = 0 ∧ t.tickCount = 0 ∧ t.fault = none ∧
      (∀ k (h : k < Config.font.length), t.byte k = Config.font[k]) ∧ (∀ a, 80 ≤ a → t.byte a = 0) ∧
      t.host = rest ∧ t.stepsPerTick = s.stepsPerTick

/-- R181 (`tick_count` is decision D21, log 22; `fault` D2, log 7): warm reset, which writes no byte of memory. That the host's
queue and `steps_per_tick` are kept is the model's choice (logs 3 and 4, DESIGN CHOICE). -/
def Obligations.WarmResetState : Prop :=
  ∀ (s : State) (rest : List HostOp), s.host = .warmReset :: rest →
    ∃ t, step s = .next t ∧ (∀ k, t.reg k = 0) ∧ t.pc = 0x200 ∧ t.index = 0 ∧ (∀ k : Fin 16, t.stack[k.val] = 0) ∧
      t.sp = 0 ∧ t.dt = 0 ∧ t.st = 0 ∧ (∀ k : Reg, t.keypad[k.val] = false) ∧ (∀ c r, t.pixel c r = false) ∧
      t.drawFlag = true ∧ t.opcode = 0 ∧ t.tickCount = 0 ∧ t.fault = none ∧ SameBytes s t ∧
      t.host = rest ∧ t.stepsPerTick = s.stepsPerTick

/-- R183: program load writes its bytes from 0x200 on and nothing else, or is rejected and changes nothing; a read that came
out short (R163) is rejected, and that this comes before the length is looked at is log 24 (DEDUCED). The queue of pending
operations is the model's (log 3, DESIGN CHOICE). -/
def Obligations.ProgramLoadResult : Prop :=
  ∀ (s : State) (rest : List HostOp) (reported : Nat) (bytes : List Byte), s.host = .loadProgram reported bytes :: rest →
    ∃ t, step s = .next t ∧
      (bytes.length < reported → loadVerdict reported bytes = .romReadIncomplete ∧ t = { s with host := rest }) ∧
      (reported ≤ bytes.length → 3584 < bytes.length →
        loadVerdict reported bytes = .romTooLarge ∧ t = { s with host := rest }) ∧
      (reported ≤ bytes.length → bytes.length ≤ 3584 →
        loadVerdict reported bytes = .accepted ∧
        (∀ k (h : k < bytes.length), t.byte (0x200 + k) = bytes[k]) ∧
        (∀ a, a < 0x200 ∨ 0x200 + bytes.length ≤ a → t.byte a = s.byte a) ∧
        t = { s with host := rest, mem := t.mem })

/-- 60_exceptions.md R162: writing a key latch and clearing the draw flag each write their one element. That the host can set
`steps_per_tick` apart from a step request is the model's choice (log 4, DESIGN CHOICE), and so is the queue (log 3). -/
def Obligations.HostWriteResults : Prop :=
  ∀ (s : State) (rest : List HostOp) (k : Reg) (b : Bool) (n : Nat),
    (s.host = .setKey k b :: rest →
      ∃ t, step s = .next t ∧ (∀ j : Reg, t.keypad[j.val] = if j = k then b else s.keypad[j.val]) ∧
        t = { s with keypad := t.keypad, host := rest }) ∧
    (s.host = .clearDrawFlag :: rest → step s = .next { s with drawFlag := false, host := rest }) ∧
    (s.host = .setStepsPerTick n :: rest → step s = .next { s with stepsPerTick := n, host := rest })

/-! ### The whole machine -/

/-- 10_state.md R20, R21: an instruction writes no general register but those the lists name. That `8xy0` to `8xy3` do not write
`V[15]` as a flag is decision D7 (log 12). -/
def Obligations.RegistersKeptUnlessNamed : Prop :=
  ∀ (i : Instr) (s t : State) (k : Reg), exec i s = .next t → ¬ writesReg i k → t.reg k = s.reg k

/-- R23 to R32, R35, 20_memory.md R47: which instructions write each of the other elements: no other instruction does. -/
def Obligations.ElementsKeptUnlessNamed : Prop :=
  ∀ (i : Instr) (s t : State), exec i s = .next t →
    (t.keypad = s.keypad ∧ t.opcode = s.opcode ∧ t.tickCount = s.tickCount ∧ t.stepsPerTick = s.stepsPerTick ∧
      t.events = s.events ∧ t.host = s.host) ∧
    (i ≠ .cls → (∀ x y n, i ≠ .drw x y n) → t.video = s.video ∧ t.drawFlag = s.drawFlag) ∧
    ((∀ x, i ≠ .ldB x) → (∀ x, i ≠ .stRegs x) → SameBytes s t) ∧
    ((∀ nnn, i ≠ .call nnn) → t.stack = s.stack ∧ (i ≠ .ret → t.sp = s.sp)) ∧
    ((∀ nnn, i ≠ .ldI nnn) → (∀ x, i ≠ .addI x ∧ i ≠ .ldF x ∧ i ≠ .stRegs x ∧ i ≠ .ldRegs x) → t.index = s.index) ∧
    ((∀ x, i ≠ .ldDtVx x) → t.dt = s.dt) ∧ ((∀ x, i ≠ .ldStVx x) → t.st = s.st) ∧
    ((∀ x nn, i ≠ .rnd x nn) → t.rndIndex = s.rndIndex)

/-- R30, R161: the core never clears the draw flag: a step that clears it is the host's clear. -/
def Obligations.DrawFlagClearedByHostOnly : Prop :=
  ∀ s t : State, step s = .next t → s.drawFlag = true → t.drawFlag = false → s.host.head? = some .clearDrawFlag

/-- R28, R52, R162: a step of the core leaves the key latches, `steps_per_tick` and the host's queue alone, and writes memory by
`Fx33` and `Fx55` only. -/
def Obligations.CoreStepKeepsHostsElements : Prop :=
  ∀ s t : State, s.host = [] → step s = .next t →
    t.keypad = s.keypad ∧ t.stepsPerTick = s.stepsPerTick ∧ t.host = [] ∧
    ((∀ op x, fetch s = some op → decode op ≠ .ok (.ldB x) ∧ decode op ≠ .ok (.stRegs x)) → SameBytes s t)

/-- R31: nothing reads `opcode` across steps: two states that differ in it alone step alike, up to the `opcode` of a step that
does not complete. -/
def Obligations.OpcodeLatchIsNeverRead : Prop :=
  ∀ (s t : State) (w : Word), step s = .next t →
    ∃ u, step { s with opcode := w } = .next u ∧ { u with opcode := t.opcode } = t ∧
      (s.Running → t.fault = none → u = t)

/-- 40_step_cycle.md R88: a jump to its own address leaves everything unchanged but `tick_count`, the timers and (in its first
run) `opcode`. -/
def Obligations.SelfJumpSpins : Prop :=
  ∀ s : State, s.Running → s.pc.toNat ≤ 4094 →
    decode (wordOfBytes (s.byte s.pc.toNat) (s.byte (s.pc.toNat + 1))) = .ok (.jp s.pc) →
    ∃ t, step s = .next t ∧
      t = { s with
        opcode := wordOfBytes (s.byte s.pc.toNat) (s.byte (s.pc.toNat + 1))
        tickCount := t.tickCount, dt := t.dt, st := t.st }

/-- R22, R24, R25, R34, R90: every step, of the core or of the host, keeps the invariant: memory in canonical form, `pc` at most 0x10FE,
every return address on the stack some call's `a + 2`. -/
def Obligations.StepKeepsInvariant : Prop :=
  ∀ s t : State, s.Inv → step s = .next t → t.Inv

/-- R180: the state after power-on reset meets the invariant. -/
def Obligations.ResetMeetsInvariant : Prop :=
  State.reset.Inv

/-! ### Schedules of the host -/

/-- 00_scope.md R7, 40_step_cycle.md R89, 60_exceptions.md R162: a step that the host requests, with any input `n` and whatever it
does afterwards, is the step of the core with that input: the statements about a core with no pending operation speak of it
too. The queue is the model's (log 3, DESIGN CHOICE). -/
def Obligations.RequestedStepIsAStepOfTheCore : Prop :=
  ∀ (s : State) (n : Nat) (rest : List HostOp), s.host = .requestStep n :: rest →
    step s = withPending rest (step { s with host := [], stepsPerTick := n })

/-- R7, R162 "A model may therefore let the host act between any two steps, which covers every driver schedule": whatever
operations and step requests the host chooses, in whatever order, the machine performs exactly those one after another (key
latches, resets, loads and new thresholds between any two steps of the core), and then goes on with what is still pending.
The queue is the model's (log 3, DESIGN CHOICE). -/
def Obligations.EveryScheduleTakesPlace : Prop :=
  ∀ (ops rest : List HostOp) (s : State), s.host = [] →
    runSteps ops.length { s with host := ops ++ rest } = withPending rest (runSchedule ops s)
end

