-- ==== Sys2Proof/Laws/Decode.lean ====
section
/-! SUPPORT. The fields of a word as numbers, the words of the encoder as numbers, and the masks of the opcode map. -/

namespace Sys2Proof

theorem fieldT_eq (op : Word) : fieldT op = op.toNat / 0x1000 := by
  have := op.isLt
  simp [fieldT, Nat.shiftRight_eq_div_pow]; omega

theorem fieldN_eq (op : Word) : fieldN op = op.toNat % 0x10 := by simp [fieldN]

theorem fieldX_val (op : Word) : (fieldX op).val = op.toNat / 0x100 % 0x10 := by
  simp [fieldX, Nat.shiftRight_eq_div_pow]

theorem fieldY_val (op : Word) : (fieldY op).val = op.toNat / 0x10 % 0x10 := by
  simp [fieldY, Nat.shiftRight_eq_div_pow]

theorem fieldNN_toNat (op : Word) : (fieldNN op).toNat = op.toNat % 0x100 := by simp [fieldNN]

theorem fieldNNN_toNat (op : Word) : (fieldNNN op).toNat = op.toNat % 0x1000 := by
  simp [fieldNNN]; omega

theorem fieldNN_eq_iff (op : Word) (b : Byte) : fieldNN op = b ↔ op.toNat % 0x100 = b.toNat := by
  rw [← fieldNN_toNat, BitVec.toNat_inj]

/-- R42, on numbers. -/
theorem wordOfBytes_toNat (a b : Byte) : (wordOfBytes a b).toNat = 0x100 * a.toNat + b.toNat := by
  have ha := a.isLt
  have h : a.toNat * 256 % 65536 = a.toNat <<< 8 := by rw [Nat.shiftLeft_eq]; omega
  simp [wordOfBytes, Nat.shiftLeft_eq]
  rw [h, Nat.mod_eq_of_lt (show b.toNat < 65536 by omega), ← Nat.shiftLeft_add_eq_or_of_lt b.isLt, Nat.shiftLeft_eq]; omega

/-- Storing a word's bytes and fetching them gives the word (R42). -/
theorem wordOfBytes_bytesOfWord (op : Word) : wordOfBytes (op.extractLsb' 8 8) (op.extractLsb' 0 8) = op := by
  apply BitVec.eq_of_toNat_eq
  have := op.isLt
  rw [wordOfBytes_toNat]
  simp [Nat.shiftRight_eq_div_pow]; omega

theorem wordTxNN_toNat {t nn : Nat} (x : Reg) (ht : t < 16) (hn : nn < 256) :
    (wordTxNN t x nn).toNat = 0x1000 * t + 0x100 * x.val + nn := by
  have := x.isLt
  simp [wordTxNN]; omega

theorem wordTxyN_toNat {t n : Nat} (x y : Reg) (ht : t < 16) (hn : n < 16) :
    (wordTxyN t x y n).toNat = 0x1000 * t + 0x100 * x.val + 0x10 * y.val + n := by
  have := x.isLt; have := y.isLt
  simp [wordTxyN]; omega

theorem wordTNNN_toNat {t : Nat} {nnn : Word} (ht : t < 16) (hn : nnn.toNat ≤ 0xFFF) :
    (wordTNNN t nnn).toNat = 0x1000 * t + nnn.toNat := by
  simp [wordTNNN]; omega

/-- A word under a mask that keeps the top nibble and its `k` low bits, as a number. -/
theorem toNat_high_or_low (op : Word) (k : Nat) (hk : k ≤ 12) :
    (((op >>> 12) <<< 12) ||| ((op.setWidth k).setWidth 16)).toNat = 0x1000 * fieldT op + op.toNat % 2 ^ k := by
  have := op.isLt
  have hlow : op.toNat % 2 ^ k < 2 ^ 12 :=
    Nat.lt_of_lt_of_le (Nat.mod_lt _ (Nat.two_pow_pos k)) (Nat.pow_le_pow_right (by decide) hk)
  have h1 : ((op >>> 12) <<< 12).toNat = (op.toNat / 0x1000) <<< 12 := by
    simp [Nat.shiftRight_eq_div_pow, Nat.shiftLeft_eq]; omega
  have h2 : ((op.setWidth k).setWidth 16).toNat = op.toNat % 2 ^ k := by simp; omega
  rw [BitVec.toNat_or, h1, h2, ← Nat.shiftLeft_add_eq_or_of_lt hlow, fieldT_eq, Nat.shiftLeft_eq, Nat.mul_comm]

theorem and_F000_toNat (op : Word) : (op &&& 0xF000).toNat = 0x1000 * fieldT op := by
  have h : op &&& (0xF000 : Word) = ((op >>> 12) <<< 12) ||| ((op.setWidth 0).setWidth 16) := by
    apply BitVec.eq_of_getLsbD_eq
    intro i hi
    interval_cases i <;> simp
  rw [h, toNat_high_or_low op 0 (by decide)]; omega

theorem and_F00F_toNat (op : Word) : (op &&& 0xF00F).toNat = 0x1000 * fieldT op + fieldN op := by
  have h : op &&& (0xF00F : Word) = ((op >>> 12) <<< 12) ||| ((op.setWidth 4).setWidth 16) := by
    apply BitVec.eq_of_getLsbD_eq
    intro i hi
    interval_cases i <;> simp
  rw [h, toNat_high_or_low op 4 (by decide), fieldN_eq]; omega

theorem and_F0FF_toNat (op : Word) : (op &&& 0xF0FF).toNat = 0x1000 * fieldT op + (fieldNN op).toNat := by
  have h : op &&& (0xF0FF : Word) = ((op >>> 12) <<< 12) ||| ((op.setWidth 8).setWidth 16) := by
    apply BitVec.eq_of_getLsbD_eq
    intro i hi
    interval_cases i <;> simp
  rw [h, toNat_high_or_low op 8 (by decide), fieldNN_toNat]; omega

theorem fieldT_lt (op : Word) : fieldT op < 16 := by have := op.isLt; rw [fieldT_eq]; omega

theorem fieldN_lt (op : Word) : fieldN op < 16 := by rw [fieldN_eq]; omega

/-- The mask of the families that the top nibble alone selects. -/
theorem and_F000_eq_iff (op : Word) (t : Nat) (ht : t < 16) : op &&& 0xF000 = BitVec.ofNat 16 (0x1000 * t) ↔ fieldT op = t := by
  rw [← BitVec.toNat_inj, and_F000_toNat, BitVec.toNat_ofNat]; omega

/-- The mask of the families whose low nibble is the secondary opcode. -/
theorem and_F00F_eq_iff (op : Word) (t n : Nat) (ht : t < 16) (hn : n < 16) :
    op &&& 0xF00F = BitVec.ofNat 16 (0x1000 * t + n) ↔ fieldT op = t ∧ fieldN op = n := by
  have := fieldN_lt op
  rw [← BitVec.toNat_inj, and_F00F_toNat, BitVec.toNat_ofNat]; omega

/-- The mask of the families whose low byte is the secondary opcode. -/
theorem and_F0FF_eq_iff (op : Word) (t n : Nat) (ht : t < 16) (hn : n < 256) :
    op &&& 0xF0FF = BitVec.ofNat 16 (0x1000 * t + n) ↔ fieldT op = t ∧ (fieldNN op).toNat = n := by
  have := (fieldNN op).isLt
  rw [← BitVec.toNat_inj, and_F0FF_toNat, BitVec.toNat_ofNat]; omega

/-! ### When a row of the opcode map fits a word -/

theorem fits_FFFF (name : String) (m op : Word) : OpcodeRow.fits ⟨name, m, 0xFFFF⟩ op = decide (op = m) := by
  have h : op &&& 0xFFFF = op := by
    apply BitVec.eq_of_getLsbD_eq
    intro i hi
    interval_cases i <;> simp
  simp only [OpcodeRow.fits, h]; rfl

theorem fits_F000 (name : String) (t : Nat) (ht : t < 16) (op : Word) :
    OpcodeRow.fits ⟨name, BitVec.ofNat 16 (0x1000 * t), 0xF000⟩ op = decide (fieldT op = t) := by
  rw [Bool.eq_iff_iff]
  simpa [OpcodeRow.fits] using and_F000_eq_iff op t ht

theorem fits_F00F (name : String) (t n : Nat) (ht : t < 16) (hn : n < 16) (op : Word) :
    OpcodeRow.fits ⟨name, BitVec.ofNat 16 (0x1000 * t + n), 0xF00F⟩ op = decide (fieldT op = t ∧ fieldN op = n) := by
  rw [Bool.eq_iff_iff]
  simpa [OpcodeRow.fits] using and_F00F_eq_iff op t n ht hn

theorem fits_F0FF (name : String) (t n : Nat) (ht : t < 16) (hn : n < 256) (op : Word) :
    OpcodeRow.fits ⟨name, BitVec.ofNat 16 (0x1000 * t + n), 0xF0FF⟩ op =
      decide (fieldT op = t ∧ (fieldNN op).toNat = n) := by
  rw [Bool.eq_iff_iff]
  simpa [OpcodeRow.fits] using and_F0FF_eq_iff op t n ht hn

end Sys2Proof
end

