-- ==== Sys2Proof/Laws/Memory.lean ====
section
/-! SUPPORT. What the memory operations do: a read after a write, the canonical form, and that canonical memories with equal
bytes are equal. -/

namespace Sys2Proof.Machine.Memory

theorem read_without_self (m : Memory) (a : Nat) : (m.without a).read a = unlisted a := by
  induction m with
  | nil => rfl
  | cons c m ih =>
    obtain ⟨b, w⟩ := c
    unfold without at ih ⊢
    by_cases h : b = a
    · simpa [List.filter_cons, h] using ih
    · simp [h, read, Ne.symm h, ih]

theorem read_without_other (m : Memory) (a b : Nat) (h : b ≠ a) : (m.without a).read b = m.read b := by
  induction m with
  | nil => rfl
  | cons c m ih =>
    obtain ⟨k, w⟩ := c
    unfold without at ih ⊢
    by_cases hk : k = a
    · subst hk; simpa [List.filter_cons, read, h] using ih
    · by_cases hb : b = k <;> simp [hk, read, hb, ← ih]

theorem read_insert (m : Memory) (a : Nat) (val : Byte) (h : ∀ c ∈ m, c.1 ≠ a) (b : Nat) :
    (m.insert a val).read b = if b = a then val else m.read b := by
  induction m with
  | nil => simp [insert, read]
  | cons c m ih =>
    obtain ⟨k, w⟩ := c
    have hk : k ≠ a := h (k, w) (by simp)
    have ih' := ih fun c hc => h c (by simp [hc])
    unfold insert
    split
    · simp [read]
    · by_cases hb : b = k
      · subst hb; simp [read, hk]
      · simp [read, hb, ih']

theorem without_ne (m : Memory) (a : Nat) : ∀ c ∈ m.without a, c.1 ≠ a := by
  simp [without]

/-- A byte written reads back, and no other byte changes. -/
@[simp] theorem read_write (m : Memory) (a : Nat) (val : Byte) (b : Nat) :
    (m.write a val).read b = if b = a then val else m.read b := by
  unfold write
  by_cases hb : b = a
  · subst hb
    split
    · next h => simp [read_without_self, h]
    · simp [read_insert _ _ _ (without_ne m b)]
  · split
    · simp [hb, read_without_other]
    · simp [read_insert _ _ _ (without_ne m a), hb, read_without_other]

/-- Bytes written at ascending addresses read back, and no other byte changes. -/
theorem read_writeBytes (m : Memory) (a : Nat) (bs : List Byte) (b : Nat) :
    (m.writeBytes a bs).read b = if h : a ≤ b ∧ b < a + bs.length then bs[b - a]'(by omega) else m.read b := by
  induction bs generalizing m a with
  | nil => simp [writeBytes]
  | cons x bs ih =>
    rw [writeBytes, ih]
    by_cases h1 : b = a
    · subst h1; simp
    · by_cases h2 : a + 1 ≤ b ∧ b < a + 1 + bs.length
      · have h3 : a ≤ b ∧ b < a + (x :: bs).length := by simp only [List.length_cons]; omega
        have h4 : b - a = (b - (a + 1)) + 1 := by omega
        rw [dif_pos h2, dif_pos h3]
        simp [h4]
      · have h3 : ¬ (a ≤ b ∧ b < a + (x :: bs).length) := by simp only [List.length_cons]; omega
        rw [dif_neg h2, dif_neg h3]
        simp [h1]

theorem read_writeBytes_outside (m : Memory) (a : Nat) (bs : List Byte) (b : Nat) (h : b < a ∨ a + bs.length ≤ b) :
    (m.writeBytes a bs).read b = m.read b := by
  rw [read_writeBytes, dif_neg (by omega)]

theorem read_writeBytes_inside (m : Memory) (a : Nat) (bs : List Byte) (k : Nat) (h : k < bs.length) :
    (m.writeBytes a bs).read (a + k) = bs[k] := by
  rw [read_writeBytes, dif_pos (by omega)]
  simp

@[simp] theorem length_readBytes (m : Memory) (a n : Nat) : (m.readBytes a n).length = n := by
  induction n generalizing a with
  | zero => rfl
  | succ n ih => simp [readBytes, ih]

@[simp] theorem getElem_readBytes (m : Memory) (a n k : Nat) (h : k < (m.readBytes a n).length) :
    (m.readBytes a n)[k] = m.read (a + k) := by
  induction n generalizing a k with
  | zero => simp at h
  | succ n ih =>
    cases k with
    | zero => rfl
    | succ k =>
      simp only [readBytes, List.getElem_cons_succ]
      rw [ih]
      congr 1; omega

/-! ### The canonical form -/

theorem wfFrom_le {lo lo' : Nat} {m : Memory} (h : wfFrom lo m = true) (hl : lo' ≤ lo) : wfFrom lo' m = true := by
  cases m with
  | nil => rfl
  | cons c m => obtain ⟨a, w⟩ := c; simp [wfFrom] at h ⊢; exact ⟨⟨⟨by omega, h.1.1.2⟩, h.1.2⟩, h.2⟩

theorem wfFrom_without {lo : Nat} {m : Memory} (h : wfFrom lo m = true) (a : Nat) : wfFrom lo (m.without a) = true := by
  induction m generalizing lo with
  | nil => rfl
  | cons c m ih =>
    obtain ⟨b, w⟩ := c
    simp [wfFrom] at h
    unfold without at ih ⊢
    by_cases hb : b = a
    · simpa [List.filter_cons, hb] using ih (wfFrom_le h.2 (by omega))
    · simp [hb, wfFrom, h, ih h.2]

theorem wfFrom_insert {lo : Nat} {m : Memory} (h : wfFrom lo m = true) {a : Nat} {val : Byte} (hn : ∀ c ∈ m, c.1 ≠ a)
    (hlo : lo ≤ a) (ha : a < Config.memSize) (hv : val ≠ unlisted a) : wfFrom lo (m.insert a val) = true := by
  induction m generalizing lo with
  | nil => simp [insert, wfFrom, hlo, ha, hv]
  | cons c m ih =>
    obtain ⟨b, w⟩ := c
    have hb : b ≠ a := hn (b, w) (by simp)
    simp [wfFrom] at h
    unfold insert
    split
    · next hab => simp at hab; simp [wfFrom, hlo, ha, hv, h]; omega
    · next hab =>
      simp at hab
      have := ih h.2 (fun c hc => hn c (by simp [hc])) (by omega)
      simp [wfFrom, h, this]

/-- A store inside the memory keeps the canonical form. -/
theorem wf_write {m : Memory} (h : m.wf = true) {a : Nat} (ha : a < Config.memSize) (val : Byte) : (m.write a val).wf = true := by
  unfold write wf at *
  split
  · exact wfFrom_without h a
  · next hv => exact wfFrom_insert (wfFrom_without h a) (without_ne m a) (by omega) ha hv

/-- A transfer inside the memory keeps the canonical form. -/
theorem wf_writeBytes {m : Memory} (h : m.wf = true) {a : Nat} {bs : List Byte} (ha : a + bs.length ≤ Config.memSize) :
    (m.writeBytes a bs).wf = true := by
  induction bs generalizing m a with
  | nil => exact h
  | cons b bs ih =>
    simp only [List.length_cons] at ha
    exact ih (wf_write h (by omega) b) (by omega)

theorem wf_nil : wf ([] : Memory) = true := rfl

theorem read_below {lo : Nat} {m : Memory} (h : wfFrom lo m = true) {a : Nat} (ha : a < lo) : m.read a = unlisted a := by
  induction m generalizing lo with
  | nil => rfl
  | cons c m ih =>
    obtain ⟨b, w⟩ := c
    simp [wfFrom] at h
    have hb : a ≠ b := by omega
    simp [read, hb, ih h.2 (by omega)]

theorem eq_of_read_eq_from {lo : Nat} {m m' : Memory} (h : wfFrom lo m = true) (h' : wfFrom lo m' = true)
    (hr : ∀ a, m.read a = m'.read a) : m = m' := by
  induction m generalizing lo m' with
  | nil =>
    cases m' with
    | nil => rfl
    | cons c m' =>
      obtain ⟨b, w⟩ := c
      simp [wfFrom] at h'
      exact absurd (hr b).symm (by simpa [read] using h'.1.2)
  | cons c m ih =>
    obtain ⟨b, w⟩ := c
    simp [wfFrom] at h
    cases m' with
    | nil => exact absurd (hr b) (by simpa [read] using h.1.2)
    | cons c' m' =>
      obtain ⟨b', w'⟩ := c'
      simp [wfFrom] at h'
      have hbb : b = b' := by
        by_contra hne
        rcases Nat.lt_or_gt_of_ne hne with hlt | hgt
        · have := hr b
          simp [read, hne, read_below h'.2 (show b < b' + 1 by omega)] at this
          exact h.1.2 this
        · have := (hr b').symm
          simp [read, Ne.symm hne, read_below h.2 (show b' < b + 1 by omega)] at this
          exact h'.1.2 this
      subst hbb
      have hw : w = w' := by simpa [read] using hr b
      subst hw
      have : m = m' := by
        refine ih h.2 h'.2 fun a => ?_
        by_cases ha : a = b
        · subst ha; rw [read_below h.2 (by omega), read_below h'.2 (by omega)]
        · simpa [read, ha] using hr a
      rw [this]

/-- Canonical memories with equal bytes are equal lists. -/
theorem eq_of_read_eq {m m' : Memory} (h : m.wf = true) (h' : m'.wf = true) (hr : ∀ a, m.read a = m'.read a) : m = m' :=
  eq_of_read_eq_from h h' hr

end Sys2Proof.Machine.Memory
end

