-- ==== Sys2Proof/Laws/State.lean ====
section
/-! SUPPORT. One lemma per field and named update of State, so that no proof unfolds a record update. -/

namespace Sys2Proof.Machine

@[simp] theorem State.advance_v (s : State) : s.advance.v = s.v := rfl
@[simp] theorem State.advance_pc (s : State) : s.advance.pc = s.pc + 2 := rfl
@[simp] theorem State.advance_index (s : State) : s.advance.index = s.index := rfl
@[simp] theorem State.advance_stack (s : State) : s.advance.stack = s.stack := rfl
@[simp] theorem State.advance_sp (s : State) : s.advance.sp = s.sp := rfl
@[simp] theorem State.advance_dt (s : State) : s.advance.dt = s.dt := rfl
@[simp] theorem State.advance_st (s : State) : s.advance.st = s.st := rfl
@[simp] theorem State.advance_keypad (s : State) : s.advance.keypad = s.keypad := rfl
@[simp] theorem State.advance_video (s : State) : s.advance.video = s.video := rfl
@[simp] theorem State.advance_drawFlag (s : State) : s.advance.drawFlag = s.drawFlag := rfl
@[simp] theorem State.advance_opcode (s : State) : s.advance.opcode = s.opcode := rfl
@[simp] theorem State.advance_tickCount (s : State) : s.advance.tickCount = s.tickCount := rfl
@[simp] theorem State.advance_fault (s : State) : s.advance.fault = s.fault := rfl
@[simp] theorem State.advance_mem (s : State) : s.advance.mem = s.mem := rfl
@[simp] theorem State.advance_stepsPerTick (s : State) : s.advance.stepsPerTick = s.stepsPerTick := rfl
@[simp] theorem State.advance_rndIndex (s : State) : s.advance.rndIndex = s.rndIndex := rfl
@[simp] theorem State.advance_events (s : State) : s.advance.events = s.events := rfl
@[simp] theorem State.advance_host (s : State) : s.advance.host = s.host := rfl

@[simp] theorem State.jump_v (s : State) (target : Word) : (s.jump target).v = s.v := rfl
@[simp] theorem State.jump_pc (s : State) (target : Word) : (s.jump target).pc = target := rfl
@[simp] theorem State.jump_index (s : State) (target : Word) : (s.jump target).index = s.index := rfl
@[simp] theorem State.jump_stack (s : State) (target : Word) : (s.jump target).stack = s.stack := rfl
@[simp] theorem State.jump_sp (s : State) (target : Word) : (s.jump target).sp = s.sp := rfl
@[simp] theorem State.jump_dt (s : State) (target : Word) : (s.jump target).dt = s.dt := rfl
@[simp] theorem State.jump_st (s : State) (target : Word) : (s.jump target).st = s.st := rfl
@[simp] theorem State.jump_keypad (s : State) (target : Word) : (s.jump target).keypad = s.keypad := rfl
@[simp] theorem State.jump_video (s : State) (target : Word) : (s.jump target).video = s.video := rfl
@[simp] theorem State.jump_drawFlag (s : State) (target : Word) : (s.jump target).drawFlag = s.drawFlag := rfl
@[simp] theorem State.jump_opcode (s : State) (target : Word) : (s.jump target).opcode = s.opcode := rfl
@[simp] theorem State.jump_tickCount (s : State) (target : Word) : (s.jump target).tickCount = s.tickCount := rfl
@[simp] theorem State.jump_fault (s : State) (target : Word) : (s.jump target).fault = s.fault := rfl
@[simp] theorem State.jump_mem (s : State) (target : Word) : (s.jump target).mem = s.mem := rfl
@[simp] theorem State.jump_stepsPerTick (s : State) (target : Word) : (s.jump target).stepsPerTick = s.stepsPerTick := rfl
@[simp] theorem State.jump_rndIndex (s : State) (target : Word) : (s.jump target).rndIndex = s.rndIndex := rfl
@[simp] theorem State.jump_events (s : State) (target : Word) : (s.jump target).events = s.events := rfl
@[simp] theorem State.jump_host (s : State) (target : Word) : (s.jump target).host = s.host := rfl

@[simp] theorem State.skipIf_v (s : State) (b : Bool) : (s.skipIf b).v = s.v := by cases b <;> rfl
@[simp] theorem State.skipIf_pc (s : State) (b : Bool) : (s.skipIf b).pc = if b then s.pc + 2 else s.pc := by cases b <;> rfl
@[simp] theorem State.skipIf_index (s : State) (b : Bool) : (s.skipIf b).index = s.index := by cases b <;> rfl
@[simp] theorem State.skipIf_stack (s : State) (b : Bool) : (s.skipIf b).stack = s.stack := by cases b <;> rfl
@[simp] theorem State.skipIf_sp (s : State) (b : Bool) : (s.skipIf b).sp = s.sp := by cases b <;> rfl
@[simp] theorem State.skipIf_dt (s : State) (b : Bool) : (s.skipIf b).dt = s.dt := by cases b <;> rfl
@[simp] theorem State.skipIf_st (s : State) (b : Bool) : (s.skipIf b).st = s.st := by cases b <;> rfl
@[simp] theorem State.skipIf_keypad (s : State) (b : Bool) : (s.skipIf b).keypad = s.keypad := by cases b <;> rfl
@[simp] theorem State.skipIf_video (s : State) (b : Bool) : (s.skipIf b).video = s.video := by cases b <;> rfl
@[simp] theorem State.skipIf_drawFlag (s : State) (b : Bool) : (s.skipIf b).drawFlag = s.drawFlag := by cases b <;> rfl
@[simp] theorem State.skipIf_opcode (s : State) (b : Bool) : (s.skipIf b).opcode = s.opcode := by cases b <;> rfl
@[simp] theorem State.skipIf_tickCount (s : State) (b : Bool) : (s.skipIf b).tickCount = s.tickCount := by cases b <;> rfl
@[simp] theorem State.skipIf_fault (s : State) (b : Bool) : (s.skipIf b).fault = s.fault := by cases b <;> rfl
@[simp] theorem State.skipIf_mem (s : State) (b : Bool) : (s.skipIf b).mem = s.mem := by cases b <;> rfl
@[simp] theorem State.skipIf_stepsPerTick (s : State) (b : Bool) : (s.skipIf b).stepsPerTick = s.stepsPerTick := by cases b <;> rfl
@[simp] theorem State.skipIf_rndIndex (s : State) (b : Bool) : (s.skipIf b).rndIndex = s.rndIndex := by cases b <;> rfl
@[simp] theorem State.skipIf_events (s : State) (b : Bool) : (s.skipIf b).events = s.events := by cases b <;> rfl
@[simp] theorem State.skipIf_host (s : State) (b : Bool) : (s.skipIf b).host = s.host := by cases b <;> rfl

@[simp] theorem State.setReg_v (s : State) (k : Reg) (val : Byte) : (s.setReg k val).v = s.v.set k.val val k.isLt := rfl
@[simp] theorem State.setReg_pc (s : State) (k : Reg) (val : Byte) : (s.setReg k val).pc = s.pc := rfl
@[simp] theorem State.setReg_index (s : State) (k : Reg) (val : Byte) : (s.setReg k val).index = s.index := rfl
@[simp] theorem State.setReg_stack (s : State) (k : Reg) (val : Byte) : (s.setReg k val).stack = s.stack := rfl
@[simp] theorem State.setReg_sp (s : State) (k : Reg) (val : Byte) : (s.setReg k val).sp = s.sp := rfl
@[simp] theorem State.setReg_dt (s : State) (k : Reg) (val : Byte) : (s.setReg k val).dt = s.dt := rfl
@[simp] theorem State.setReg_st (s : State) (k : Reg) (val : Byte) : (s.setReg k val).st = s.st := rfl
@[simp] theorem State.setReg_keypad (s : State) (k : Reg) (val : Byte) : (s.setReg k val).keypad = s.keypad := rfl
@[simp] theorem State.setReg_video (s : State) (k : Reg) (val : Byte) : (s.setReg k val).video = s.video := rfl
@[simp] theorem State.setReg_drawFlag (s : State) (k : Reg) (val : Byte) : (s.setReg k val).drawFlag = s.drawFlag := rfl
@[simp] theorem State.setReg_opcode (s : State) (k : Reg) (val : Byte) : (s.setReg k val).opcode = s.opcode := rfl
@[simp] theorem State.setReg_tickCount (s : State) (k : Reg) (val : Byte) : (s.setReg k val).tickCount = s.tickCount := rfl
@[simp] theorem State.setReg_fault (s : State) (k : Reg) (val : Byte) : (s.setReg k val).fault = s.fault := rfl
@[simp] theorem State.setReg_mem (s : State) (k : Reg) (val : Byte) : (s.setReg k val).mem = s.mem := rfl
@[simp] theorem State.setReg_stepsPerTick (s : State) (k : Reg) (val : Byte) : (s.setReg k val).stepsPerTick = s.stepsPerTick := rfl
@[simp] theorem State.setReg_rndIndex (s : State) (k : Reg) (val : Byte) : (s.setReg k val).rndIndex = s.rndIndex := rfl
@[simp] theorem State.setReg_events (s : State) (k : Reg) (val : Byte) : (s.setReg k val).events = s.events := rfl
@[simp] theorem State.setReg_host (s : State) (k : Reg) (val : Byte) : (s.setReg k val).host = s.host := rfl

@[simp] theorem State.setRegAndFlag_pc (s : State) (x : Reg) (val : Byte) (b : Bool) : (s.setRegAndFlag x val b).pc = s.pc := rfl
@[simp] theorem State.setRegAndFlag_index (s : State) (x : Reg) (val : Byte) (b : Bool) : (s.setRegAndFlag x val b).index = s.index := rfl
@[simp] theorem State.setRegAndFlag_stack (s : State) (x : Reg) (val : Byte) (b : Bool) : (s.setRegAndFlag x val b).stack = s.stack := rfl
@[simp] theorem State.setRegAndFlag_sp (s : State) (x : Reg) (val : Byte) (b : Bool) : (s.setRegAndFlag x val b).sp = s.sp := rfl
@[simp] theorem State.setRegAndFlag_dt (s : State) (x : Reg) (val : Byte) (b : Bool) : (s.setRegAndFlag x val b).dt = s.dt := rfl
@[simp] theorem State.setRegAndFlag_st (s : State) (x : Reg) (val : Byte) (b : Bool) : (s.setRegAndFlag x val b).st = s.st := rfl
@[simp] theorem State.setRegAndFlag_keypad (s : State) (x : Reg) (val : Byte) (b : Bool) : (s.setRegAndFlag x val b).keypad = s.keypad := rfl
@[simp] theorem State.setRegAndFlag_video (s : State) (x : Reg) (val : Byte) (b : Bool) : (s.setRegAndFlag x val b).video = s.video := rfl
@[simp] theorem State.setRegAndFlag_drawFlag (s : State) (x : Reg) (val : Byte) (b : Bool) : (s.setRegAndFlag x val b).drawFlag = s.drawFlag := rfl
@[simp] theorem State.setRegAndFlag_opcode (s : State) (x : Reg) (val : Byte) (b : Bool) : (s.setRegAndFlag x val b).opcode = s.opcode := rfl
@[simp] theorem State.setRegAndFlag_tickCount (s : State) (x : Reg) (val : Byte) (b : Bool) : (s.setRegAndFlag x val b).tickCount = s.tickCount := rfl
@[simp] theorem State.setRegAndFlag_fault (s : State) (x : Reg) (val : Byte) (b : Bool) : (s.setRegAndFlag x val b).fault = s.fault := rfl
@[simp] theorem State.setRegAndFlag_mem (s : State) (x : Reg) (val : Byte) (b : Bool) : (s.setRegAndFlag x val b).mem = s.mem := rfl
@[simp] theorem State.setRegAndFlag_stepsPerTick (s : State) (x : Reg) (val : Byte) (b : Bool) : (s.setRegAndFlag x val b).stepsPerTick = s.stepsPerTick := rfl
@[simp] theorem State.setRegAndFlag_rndIndex (s : State) (x : Reg) (val : Byte) (b : Bool) : (s.setRegAndFlag x val b).rndIndex = s.rndIndex := rfl
@[simp] theorem State.setRegAndFlag_events (s : State) (x : Reg) (val : Byte) (b : Bool) : (s.setRegAndFlag x val b).events = s.events := rfl
@[simp] theorem State.setRegAndFlag_host (s : State) (x : Reg) (val : Byte) (b : Bool) : (s.setRegAndFlag x val b).host = s.host := rfl

@[simp] theorem State.setIndex_v (s : State) (a : Word) : (s.setIndex a).v = s.v := rfl
@[simp] theorem State.setIndex_pc (s : State) (a : Word) : (s.setIndex a).pc = s.pc := rfl
@[simp] theorem State.setIndex_index (s : State) (a : Word) : (s.setIndex a).index = a := rfl
@[simp] theorem State.setIndex_stack (s : State) (a : Word) : (s.setIndex a).stack = s.stack := rfl
@[simp] theorem State.setIndex_sp (s : State) (a : Word) : (s.setIndex a).sp = s.sp := rfl
@[simp] theorem State.setIndex_dt (s : State) (a : Word) : (s.setIndex a).dt = s.dt := rfl
@[simp] theorem State.setIndex_st (s : State) (a : Word) : (s.setIndex a).st = s.st := rfl
@[simp] theorem State.setIndex_keypad (s : State) (a : Word) : (s.setIndex a).keypad = s.keypad := rfl
@[simp] theorem State.setIndex_video (s : State) (a : Word) : (s.setIndex a).video = s.video := rfl
@[simp] theorem State.setIndex_drawFlag (s : State) (a : Word) : (s.setIndex a).drawFlag = s.drawFlag := rfl
@[simp] theorem State.setIndex_opcode (s : State) (a : Word) : (s.setIndex a).opcode = s.opcode := rfl
@[simp] theorem State.setIndex_tickCount (s : State) (a : Word) : (s.setIndex a).tickCount = s.tickCount := rfl
@[simp] theorem State.setIndex_fault (s : State) (a : Word) : (s.setIndex a).fault = s.fault := rfl
@[simp] theorem State.setIndex_mem (s : State) (a : Word) : (s.setIndex a).mem = s.mem := rfl
@[simp] theorem State.setIndex_stepsPerTick (s : State) (a : Word) : (s.setIndex a).stepsPerTick = s.stepsPerTick := rfl
@[simp] theorem State.setIndex_rndIndex (s : State) (a : Word) : (s.setIndex a).rndIndex = s.rndIndex := rfl
@[simp] theorem State.setIndex_events (s : State) (a : Word) : (s.setIndex a).events = s.events := rfl
@[simp] theorem State.setIndex_host (s : State) (a : Word) : (s.setIndex a).host = s.host := rfl

@[simp] theorem State.setDelay_v (s : State) (val : Byte) : (s.setDelay val).v = s.v := rfl
@[simp] theorem State.setDelay_pc (s : State) (val : Byte) : (s.setDelay val).pc = s.pc := rfl
@[simp] theorem State.setDelay_index (s : State) (val : Byte) : (s.setDelay val).index = s.index := rfl
@[simp] theorem State.setDelay_stack (s : State) (val : Byte) : (s.setDelay val).stack = s.stack := rfl
@[simp] theorem State.setDelay_sp (s : State) (val : Byte) : (s.setDelay val).sp = s.sp := rfl
@[simp] theorem State.setDelay_dt (s : State) (val : Byte) : (s.setDelay val).dt = val := rfl
@[simp] theorem State.setDelay_st (s : State) (val : Byte) : (s.setDelay val).st = s.st := rfl
@[simp] theorem State.setDelay_keypad (s : State) (val : Byte) : (s.setDelay val).keypad = s.keypad := rfl
@[simp] theorem State.setDelay_video (s : State) (val : Byte) : (s.setDelay val).video = s.video := rfl
@[simp] theorem State.setDelay_drawFlag (s : State) (val : Byte) : (s.setDelay val).drawFlag = s.drawFlag := rfl
@[simp] theorem State.setDelay_opcode (s : State) (val : Byte) : (s.setDelay val).opcode = s.opcode := rfl
@[simp] theorem State.setDelay_tickCount (s : State) (val : Byte) : (s.setDelay val).tickCount = s.tickCount := rfl
@[simp] theorem State.setDelay_fault (s : State) (val : Byte) : (s.setDelay val).fault = s.fault := rfl
@[simp] theorem State.setDelay_mem (s : State) (val : Byte) : (s.setDelay val).mem = s.mem := rfl
@[simp] theorem State.setDelay_stepsPerTick (s : State) (val : Byte) : (s.setDelay val).stepsPerTick = s.stepsPerTick := rfl
@[simp] theorem State.setDelay_rndIndex (s : State) (val : Byte) : (s.setDelay val).rndIndex = s.rndIndex := rfl
@[simp] theorem State.setDelay_events (s : State) (val : Byte) : (s.setDelay val).events = s.events := rfl
@[simp] theorem State.setDelay_host (s : State) (val : Byte) : (s.setDelay val).host = s.host := rfl

@[simp] theorem State.setSound_v (s : State) (val : Byte) : (s.setSound val).v = s.v := rfl
@[simp] theorem State.setSound_pc (s : State) (val : Byte) : (s.setSound val).pc = s.pc := rfl
@[simp] theorem State.setSound_index (s : State) (val : Byte) : (s.setSound val).index = s.index := rfl
@[simp] theorem State.setSound_stack (s : State) (val : Byte) : (s.setSound val).stack = s.stack := rfl
@[simp] theorem State.setSound_sp (s : State) (val : Byte) : (s.setSound val).sp = s.sp := rfl
@[simp] theorem State.setSound_dt (s : State) (val : Byte) : (s.setSound val).dt = s.dt := rfl
@[simp] theorem State.setSound_st (s : State) (val : Byte) : (s.setSound val).st = val := rfl
@[simp] theorem State.setSound_keypad (s : State) (val : Byte) : (s.setSound val).keypad = s.keypad := rfl
@[simp] theorem State.setSound_video (s : State) (val : Byte) : (s.setSound val).video = s.video := rfl
@[simp] theorem State.setSound_drawFlag (s : State) (val : Byte) : (s.setSound val).drawFlag = s.drawFlag := rfl
@[simp] theorem State.setSound_opcode (s : State) (val : Byte) : (s.setSound val).opcode = s.opcode := rfl
@[simp] theorem State.setSound_tickCount (s : State) (val : Byte) : (s.setSound val).tickCount = s.tickCount := rfl
@[simp] theorem State.setSound_fault (s : State) (val : Byte) : (s.setSound val).fault = s.fault := rfl
@[simp] theorem State.setSound_mem (s : State) (val : Byte) : (s.setSound val).mem = s.mem := rfl
@[simp] theorem State.setSound_stepsPerTick (s : State) (val : Byte) : (s.setSound val).stepsPerTick = s.stepsPerTick := rfl
@[simp] theorem State.setSound_rndIndex (s : State) (val : Byte) : (s.setSound val).rndIndex = s.rndIndex := rfl
@[simp] theorem State.setSound_events (s : State) (val : Byte) : (s.setSound val).events = s.events := rfl
@[simp] theorem State.setSound_host (s : State) (val : Byte) : (s.setSound val).host = s.host := rfl

@[simp] theorem State.storeBytes_v (s : State) (a : Nat) (bs : List Byte) : (s.storeBytes a bs).v = s.v := rfl
@[simp] theorem State.storeBytes_pc (s : State) (a : Nat) (bs : List Byte) : (s.storeBytes a bs).pc = s.pc := rfl
@[simp] theorem State.storeBytes_index (s : State) (a : Nat) (bs : List Byte) : (s.storeBytes a bs).index = s.index := rfl
@[simp] theorem State.storeBytes_stack (s : State) (a : Nat) (bs : List Byte) : (s.storeBytes a bs).stack = s.stack := rfl
@[simp] theorem State.storeBytes_sp (s : State) (a : Nat) (bs : List Byte) : (s.storeBytes a bs).sp = s.sp := rfl
@[simp] theorem State.storeBytes_dt (s : State) (a : Nat) (bs : List Byte) : (s.storeBytes a bs).dt = s.dt := rfl
@[simp] theorem State.storeBytes_st (s : State) (a : Nat) (bs : List Byte) : (s.storeBytes a bs).st = s.st := rfl
@[simp] theorem State.storeBytes_keypad (s : State) (a : Nat) (bs : List Byte) : (s.storeBytes a bs).keypad = s.keypad := rfl
@[simp] theorem State.storeBytes_video (s : State) (a : Nat) (bs : List Byte) : (s.storeBytes a bs).video = s.video := rfl
@[simp] theorem State.storeBytes_drawFlag (s : State) (a : Nat) (bs : List Byte) : (s.storeBytes a bs).drawFlag = s.drawFlag := rfl
@[simp] theorem State.storeBytes_opcode (s : State) (a : Nat) (bs : List Byte) : (s.storeBytes a bs).opcode = s.opcode := rfl
@[simp] theorem State.storeBytes_tickCount (s : State) (a : Nat) (bs : List Byte) : (s.storeBytes a bs).tickCount = s.tickCount := rfl
@[simp] theorem State.storeBytes_fault (s : State) (a : Nat) (bs : List Byte) : (s.storeBytes a bs).fault = s.fault := rfl
@[simp] theorem State.storeBytes_mem (s : State) (a : Nat) (bs : List Byte) : (s.storeBytes a bs).mem = s.mem.writeBytes a bs := rfl
@[simp] theorem State.storeBytes_stepsPerTick (s : State) (a : Nat) (bs : List Byte) : (s.storeBytes a bs).stepsPerTick = s.stepsPerTick := rfl
@[simp] theorem State.storeBytes_rndIndex (s : State) (a : Nat) (bs : List Byte) : (s.storeBytes a bs).rndIndex = s.rndIndex := rfl
@[simp] theorem State.storeBytes_events (s : State) (a : Nat) (bs : List Byte) : (s.storeBytes a bs).events = s.events := rfl
@[simp] theorem State.storeBytes_host (s : State) (a : Nat) (bs : List Byte) : (s.storeBytes a bs).host = s.host := rfl

@[simp] theorem State.loadRegs_pc (s : State) (x : Reg) (b : Nat) : (s.loadRegs x b).pc = s.pc := rfl
@[simp] theorem State.loadRegs_index (s : State) (x : Reg) (b : Nat) : (s.loadRegs x b).index = s.index := rfl
@[simp] theorem State.loadRegs_stack (s : State) (x : Reg) (b : Nat) : (s.loadRegs x b).stack = s.stack := rfl
@[simp] theorem State.loadRegs_sp (s : State) (x : Reg) (b : Nat) : (s.loadRegs x b).sp = s.sp := rfl
@[simp] theorem State.loadRegs_dt (s : State) (x : Reg) (b : Nat) : (s.loadRegs x b).dt = s.dt := rfl
@[simp] theorem State.loadRegs_st (s : State) (x : Reg) (b : Nat) : (s.loadRegs x b).st = s.st := rfl
@[simp] theorem State.loadRegs_keypad (s : State) (x : Reg) (b : Nat) : (s.loadRegs x b).keypad = s.keypad := rfl
@[simp] theorem State.loadRegs_video (s : State) (x : Reg) (b : Nat) : (s.loadRegs x b).video = s.video := rfl
@[simp] theorem State.loadRegs_drawFlag (s : State) (x : Reg) (b : Nat) : (s.loadRegs x b).drawFlag = s.drawFlag := rfl
@[simp] theorem State.loadRegs_opcode (s : State) (x : Reg) (b : Nat) : (s.loadRegs x b).opcode = s.opcode := rfl
@[simp] theorem State.loadRegs_tickCount (s : State) (x : Reg) (b : Nat) : (s.loadRegs x b).tickCount = s.tickCount := rfl
@[simp] theorem State.loadRegs_fault (s : State) (x : Reg) (b : Nat) : (s.loadRegs x b).fault = s.fault := rfl
@[simp] theorem State.loadRegs_mem (s : State) (x : Reg) (b : Nat) : (s.loadRegs x b).mem = s.mem := rfl
@[simp] theorem State.loadRegs_stepsPerTick (s : State) (x : Reg) (b : Nat) : (s.loadRegs x b).stepsPerTick = s.stepsPerTick := rfl
@[simp] theorem State.loadRegs_rndIndex (s : State) (x : Reg) (b : Nat) : (s.loadRegs x b).rndIndex = s.rndIndex := rfl
@[simp] theorem State.loadRegs_events (s : State) (x : Reg) (b : Nat) : (s.loadRegs x b).events = s.events := rfl
@[simp] theorem State.loadRegs_host (s : State) (x : Reg) (b : Nat) : (s.loadRegs x b).host = s.host := rfl

@[simp] theorem State.setVideo_v (s : State) (vid : Vector PixelRow 32) : (s.setVideo vid).v = s.v := rfl
@[simp] theorem State.setVideo_pc (s : State) (vid : Vector PixelRow 32) : (s.setVideo vid).pc = s.pc := rfl
@[simp] theorem State.setVideo_index (s : State) (vid : Vector PixelRow 32) : (s.setVideo vid).index = s.index := rfl
@[simp] theorem State.setVideo_stack (s : State) (vid : Vector PixelRow 32) : (s.setVideo vid).stack = s.stack := rfl
@[simp] theorem State.setVideo_sp (s : State) (vid : Vector PixelRow 32) : (s.setVideo vid).sp = s.sp := rfl
@[simp] theorem State.setVideo_dt (s : State) (vid : Vector PixelRow 32) : (s.setVideo vid).dt = s.dt := rfl
@[simp] theorem State.setVideo_st (s : State) (vid : Vector PixelRow 32) : (s.setVideo vid).st = s.st := rfl
@[simp] theorem State.setVideo_keypad (s : State) (vid : Vector PixelRow 32) : (s.setVideo vid).keypad = s.keypad := rfl
@[simp] theorem State.setVideo_video (s : State) (vid : Vector PixelRow 32) : (s.setVideo vid).video = vid := rfl
@[simp] theorem State.setVideo_drawFlag (s : State) (vid : Vector PixelRow 32) : (s.setVideo vid).drawFlag = true := rfl
@[simp] theorem State.setVideo_opcode (s : State) (vid : Vector PixelRow 32) : (s.setVideo vid).opcode = s.opcode := rfl
@[simp] theorem State.setVideo_tickCount (s : State) (vid : Vector PixelRow 32) : (s.setVideo vid).tickCount = s.tickCount := rfl
@[simp] theorem State.setVideo_fault (s : State) (vid : Vector PixelRow 32) : (s.setVideo vid).fault = s.fault := rfl
@[simp] theorem State.setVideo_mem (s : State) (vid : Vector PixelRow 32) : (s.setVideo vid).mem = s.mem := rfl
@[simp] theorem State.setVideo_stepsPerTick (s : State) (vid : Vector PixelRow 32) : (s.setVideo vid).stepsPerTick = s.stepsPerTick := rfl
@[simp] theorem State.setVideo_rndIndex (s : State) (vid : Vector PixelRow 32) : (s.setVideo vid).rndIndex = s.rndIndex := rfl
@[simp] theorem State.setVideo_events (s : State) (vid : Vector PixelRow 32) : (s.setVideo vid).events = s.events := rfl
@[simp] theorem State.setVideo_host (s : State) (vid : Vector PixelRow 32) : (s.setVideo vid).host = s.host := rfl

@[simp] theorem State.drawRandom_v (s : State) : s.drawRandom.2.v = s.v := rfl
@[simp] theorem State.drawRandom_pc (s : State) : s.drawRandom.2.pc = s.pc := rfl
@[simp] theorem State.drawRandom_index (s : State) : s.drawRandom.2.index = s.index := rfl
@[simp] theorem State.drawRandom_stack (s : State) : s.drawRandom.2.stack = s.stack := rfl
@[simp] theorem State.drawRandom_sp (s : State) : s.drawRandom.2.sp = s.sp := rfl
@[simp] theorem State.drawRandom_dt (s : State) : s.drawRandom.2.dt = s.dt := rfl
@[simp] theorem State.drawRandom_st (s : State) : s.drawRandom.2.st = s.st := rfl
@[simp] theorem State.drawRandom_keypad (s : State) : s.drawRandom.2.keypad = s.keypad := rfl
@[simp] theorem State.drawRandom_video (s : State) : s.drawRandom.2.video = s.video := rfl
@[simp] theorem State.drawRandom_drawFlag (s : State) : s.drawRandom.2.drawFlag = s.drawFlag := rfl
@[simp] theorem State.drawRandom_opcode (s : State) : s.drawRandom.2.opcode = s.opcode := rfl
@[simp] theorem State.drawRandom_tickCount (s : State) : s.drawRandom.2.tickCount = s.tickCount := rfl
@[simp] theorem State.drawRandom_fault (s : State) : s.drawRandom.2.fault = s.fault := rfl
@[simp] theorem State.drawRandom_mem (s : State) : s.drawRandom.2.mem = s.mem := rfl
@[simp] theorem State.drawRandom_stepsPerTick (s : State) : s.drawRandom.2.stepsPerTick = s.stepsPerTick := rfl
@[simp] theorem State.drawRandom_rndIndex (s : State) : s.drawRandom.2.rndIndex = s.rndIndex + 1 := rfl
@[simp] theorem State.drawRandom_events (s : State) : s.drawRandom.2.events = s.events := rfl
@[simp] theorem State.drawRandom_host (s : State) : s.drawRandom.2.host = s.host := rfl

@[simp] theorem unknownOpcode_v (op : Word) (s : State) : (unknownOpcode op s).v = s.v := rfl
@[simp] theorem unknownOpcode_pc (op : Word) (s : State) : (unknownOpcode op s).pc = s.pc + 2 := rfl
@[simp] theorem unknownOpcode_index (op : Word) (s : State) : (unknownOpcode op s).index = s.index := rfl
@[simp] theorem unknownOpcode_stack (op : Word) (s : State) : (unknownOpcode op s).stack = s.stack := rfl
@[simp] theorem unknownOpcode_sp (op : Word) (s : State) : (unknownOpcode op s).sp = s.sp := rfl
@[simp] theorem unknownOpcode_dt (op : Word) (s : State) : (unknownOpcode op s).dt = s.dt := rfl
@[simp] theorem unknownOpcode_st (op : Word) (s : State) : (unknownOpcode op s).st = s.st := rfl
@[simp] theorem unknownOpcode_keypad (op : Word) (s : State) : (unknownOpcode op s).keypad = s.keypad := rfl
@[simp] theorem unknownOpcode_video (op : Word) (s : State) : (unknownOpcode op s).video = s.video := rfl
@[simp] theorem unknownOpcode_drawFlag (op : Word) (s : State) : (unknownOpcode op s).drawFlag = s.drawFlag := rfl
@[simp] theorem unknownOpcode_opcode (op : Word) (s : State) : (unknownOpcode op s).opcode = s.opcode := rfl
@[simp] theorem unknownOpcode_tickCount (op : Word) (s : State) : (unknownOpcode op s).tickCount = s.tickCount := rfl
@[simp] theorem unknownOpcode_fault (op : Word) (s : State) : (unknownOpcode op s).fault = s.fault := rfl
@[simp] theorem unknownOpcode_mem (op : Word) (s : State) : (unknownOpcode op s).mem = s.mem := rfl
@[simp] theorem unknownOpcode_stepsPerTick (op : Word) (s : State) : (unknownOpcode op s).stepsPerTick = s.stepsPerTick := rfl
@[simp] theorem unknownOpcode_rndIndex (op : Word) (s : State) : (unknownOpcode op s).rndIndex = s.rndIndex := rfl
@[simp] theorem unknownOpcode_events (op : Word) (s : State) : (unknownOpcode op s).events = ⟨s.pc, op⟩ :: s.events := rfl
@[simp] theorem unknownOpcode_host (op : Word) (s : State) : (unknownOpcode op s).host = s.host := rfl

@[simp] theorem tick_v (s : State) : (tick s).v = s.v := by unfold tick; split <;> rfl
@[simp] theorem tick_pc (s : State) : (tick s).pc = s.pc := by unfold tick; split <;> rfl
@[simp] theorem tick_index (s : State) : (tick s).index = s.index := by unfold tick; split <;> rfl
@[simp] theorem tick_stack (s : State) : (tick s).stack = s.stack := by unfold tick; split <;> rfl
@[simp] theorem tick_sp (s : State) : (tick s).sp = s.sp := by unfold tick; split <;> rfl
@[simp] theorem tick_keypad (s : State) : (tick s).keypad = s.keypad := by unfold tick; split <;> rfl
@[simp] theorem tick_video (s : State) : (tick s).video = s.video := by unfold tick; split <;> rfl
@[simp] theorem tick_drawFlag (s : State) : (tick s).drawFlag = s.drawFlag := by unfold tick; split <;> rfl
@[simp] theorem tick_opcode (s : State) : (tick s).opcode = s.opcode := by unfold tick; split <;> rfl
@[simp] theorem tick_fault (s : State) : (tick s).fault = s.fault := by unfold tick; split <;> rfl
@[simp] theorem tick_mem (s : State) : (tick s).mem = s.mem := by unfold tick; split <;> rfl
@[simp] theorem tick_stepsPerTick (s : State) : (tick s).stepsPerTick = s.stepsPerTick := by unfold tick; split <;> rfl
@[simp] theorem tick_rndIndex (s : State) : (tick s).rndIndex = s.rndIndex := by unfold tick; split <;> rfl
@[simp] theorem tick_events (s : State) : (tick s).events = s.events := by unfold tick; split <;> rfl
@[simp] theorem tick_host (s : State) : (tick s).host = s.host := by unfold tick; split <;> rfl

@[simp] theorem finishStep_v (op : Word) (s : State) : (finishStep op s).v = s.v := by unfold finishStep; simp
@[simp] theorem finishStep_pc (op : Word) (s : State) : (finishStep op s).pc = s.pc := by unfold finishStep; simp
@[simp] theorem finishStep_index (op : Word) (s : State) : (finishStep op s).index = s.index := by unfold finishStep; simp
@[simp] theorem finishStep_stack (op : Word) (s : State) : (finishStep op s).stack = s.stack := by unfold finishStep; simp
@[simp] theorem finishStep_sp (op : Word) (s : State) : (finishStep op s).sp = s.sp := by unfold finishStep; simp
@[simp] theorem finishStep_keypad (op : Word) (s : State) : (finishStep op s).keypad = s.keypad := by unfold finishStep; simp
@[simp] theorem finishStep_video (op : Word) (s : State) : (finishStep op s).video = s.video := by unfold finishStep; simp
@[simp] theorem finishStep_drawFlag (op : Word) (s : State) : (finishStep op s).drawFlag = s.drawFlag := by unfold finishStep; simp
@[simp] theorem finishStep_opcode (op : Word) (s : State) : (finishStep op s).opcode = op := by unfold finishStep; simp
@[simp] theorem finishStep_fault (op : Word) (s : State) : (finishStep op s).fault = s.fault := by unfold finishStep; simp
@[simp] theorem finishStep_mem (op : Word) (s : State) : (finishStep op s).mem = s.mem := by unfold finishStep; simp
@[simp] theorem finishStep_stepsPerTick (op : Word) (s : State) : (finishStep op s).stepsPerTick = s.stepsPerTick := by unfold finishStep; simp
@[simp] theorem finishStep_rndIndex (op : Word) (s : State) : (finishStep op s).rndIndex = s.rndIndex := by unfold finishStep; simp
@[simp] theorem finishStep_events (op : Word) (s : State) : (finishStep op s).events = s.events := by unfold finishStep; simp
@[simp] theorem finishStep_host (op : Word) (s : State) : (finishStep op s).host = s.host := by unfold finishStep; simp

end Sys2Proof.Machine
end

