-- ==== Sys2Proof/Laws/Ops.lean ====
section
/-! SUPPORT. What each shared operation can do: taking a fault, the range check, fetch, the return stack, the tick phase, the end
of an instruction. -/

namespace Sys2Proof.Machine

@[simp] theorem raise_eq (c : FaultCause) (info : Word) (s : State) :
    raise c info s = .next { s with fault := some ⟨c, info⟩ } := rfl

@[simp] theorem State.byte_eq (s : State) (a : Nat) : s.byte a = s.mem.read a := rfl

/-- `max(I, 4096)` fits 16 bits (R45). -/
theorem firstOutside_toNat (b : Word) : (firstOutside b).toNat = max b.toNat 4096 := by
  unfold firstOutside
  rw [BitVec.toNat_ofNat, Nat.mod_eq_of_lt]
  have := b.isLt; omega

theorem guardRange_inside {c : FaultCause} {n : Nat} {s done : State} (h : RangeInMemory s.index.toNat n) :
    guardRange c n s done = .next done := if_pos h

theorem guardRange_outside {c : FaultCause} {n : Nat} {s done : State} (h : ¬ RangeInMemory s.index.toNat n) :
    guardRange c n s done = raise c (firstOutside s.index) s := if_neg h

/-- Everything the range check can answer. -/
theorem guardRange_cases (c : FaultCause) (n : Nat) (s done : State) :
    (RangeInMemory s.index.toNat n ∧ guardRange c n s done = .next done) ∨
      (¬ RangeInMemory s.index.toNat n ∧ guardRange c n s done = raise c (firstOutside s.index) s) := by
  by_cases h : RangeInMemory s.index.toNat n
  · exact .inl ⟨h, guardRange_inside h⟩
  · exact .inr ⟨h, guardRange_outside h⟩

theorem fetch_inside {s : State} (h : s.pc.toNat ≤ 4094) :
    fetch s = some (wordOfBytes (s.mem.read s.pc.toNat) (s.mem.read (s.pc.toNat + 1))) := if_neg (by omega)

theorem fetch_outside {s : State} (h : 4095 ≤ s.pc.toNat) : fetch s = none := if_pos h

theorem push_free {s : State} (h : s.sp.val < 16) (ret : Word) :
    s.push ret = some { s with stack := s.stack.set s.sp.val ret h, sp := ⟨s.sp.val + 1, by omega⟩ } := dif_pos h

theorem push_full {s : State} (h : s.sp.val = 16) (ret : Word) : s.push ret = none := dif_neg (by omega)

theorem pop_some {s : State} (h : 0 < s.sp.val) :
    s.pop = some (s.stack[s.sp.val - 1]'(by omega), { s with sp := ⟨s.sp.val - 1, by omega⟩ }) := dif_pos h

theorem pop_empty {s : State} (h : s.sp.val = 0) : s.pop = none := dif_neg (by omega)

/-- A timer counts down by one and never below 0 (R26, R27). -/
theorem countDown_toNat (t : Byte) : (countDown t).toNat = t.toNat - 1 := by
  unfold countDown
  split
  · next h => simp [h]
  · next h =>
    have h0 : t.toNat ≠ 0 := fun h' => h (BitVec.eq_of_toNat_eq (by simpa using h'))
    have := t.isLt
    rw [BitVec.toNat_sub]; simp; omega

theorem tick_fires {s : State} (h : s.stepsPerTick ≤ s.tickCount + 1) :
    tick s = { s with tickCount := 0, dt := countDown s.dt, st := countDown s.st } := if_pos h

theorem tick_counts {s : State} (h : s.tickCount + 1 < s.stepsPerTick) :
    tick s = { s with tickCount := s.tickCount + 1 } := if_neg (by omega)

/-- With a usable `steps_per_tick` the counter is below it after every tick phase (R32). -/
theorem tick_tickCount_lt {s : State} (h : 1 ≤ s.stepsPerTick) : (tick s).tickCount < s.stepsPerTick := by
  by_cases hf : s.stepsPerTick ≤ s.tickCount + 1
  · rw [tick_fires hf]; exact h
  · rw [tick_counts (by omega)]; show s.tickCount + 1 < s.stepsPerTick; omega

theorem endInstruction_completes {op : Word} {t : State} (h : t.fault = none) :
    endInstruction op (.next t) = .next (finishStep op t) := by simp [endInstruction, h]

theorem endInstruction_faults {op : Word} {t : State} {r : FaultRecord} (h : t.fault = some r) :
    endInstruction op (.next t) = .next t := by simp [endInstruction, h]

theorem coreStep_running {s : State} (hf : s.fault = none) (hn : 1 ≤ s.stepsPerTick) : coreStep s = runStep s := by
  unfold coreStep
  rw [if_neg (by simp [hf]), if_neg (by omega)]

theorem step_running {s : State} (h : s.Running) : step s = runStep s := by
  obtain ⟨hh, hf, hn⟩ := h
  simp [step, hh, coreStep_running hf hn]

theorem step_perform {s : State} {o : HostOp} {rest : List HostOp} (h : s.host = o :: rest) :
    step s = performHostOp o { s with host := rest } := by simp [step, h]

/-- R162: a host operation that is no step request takes place and no step runs. -/
theorem step_hostOp {s : State} {o : HostOp} {rest : List HostOp} (h : s.host = o :: rest) (ho : asksForStep o = false) :
    step s = .next (hostOp o { s with host := rest }) := by
  rw [step_perform h, performHostOp, if_neg (by simp [ho])]

/-- R89, R162: a step request runs the core with the input it presents. -/
theorem step_requestStep {s : State} {n : Nat} {rest : List HostOp} (h : s.host = .requestStep n :: rest) :
    step s = coreStep { s with host := rest, stepsPerTick := n } := by
  rw [step_perform h]; rfl

theorem step_noHostOp {s : State} (h : s.host = []) : step s = coreStep s := by simp [step, h]

end Sys2Proof.Machine
end

