-- ==== Sys2Proof/Laws/Operands.lean ====
section
/-! SUPPORT. What reading and writing operands does. -/

namespace Sys2Proof.Machine

@[simp] theorem reg_setReg (s : State) (k j : Reg) (val : Byte) :
    (s.setReg k val).reg j = if j = k then val else s.reg j := by
  unfold State.reg State.setReg
  by_cases h : j = k
  · subst h; simp
  · have h' : k.val ≠ j.val := fun e => h (Fin.ext e.symm)
    simp [h, Vector.getElem_set_ne, h']

/-- A register is read the same after an update that leaves `V` alone. -/
theorem reg_eq_of_v_eq {s t : State} (h : t.v = s.v) (k : Reg) : t.reg k = s.reg k := by simp [State.reg, h]

@[simp] theorem reg_advance (s : State) (k : Reg) : s.advance.reg k = s.reg k := rfl

/-- R112: the flag is written last, so with `x = 15` it remains. -/
@[simp] theorem reg_setRegAndFlag (s : State) (x j : Reg) (val : Byte) (b : Bool) :
    (s.setRegAndFlag x val b).reg j = if j = 15 then flagByte b else if j = x then val else s.reg j := by
  simp [State.setRegAndFlag, Config.flagReg]

@[simp] theorem reg_loadRegs (s : State) (x j : Reg) (b : Nat) :
    (s.loadRegs x b).reg j = if j.val ≤ x.val then s.mem.read (b + j.val) else s.reg j := by
  simp [State.loadRegs, State.reg]

@[simp] theorem length_regsUpTo (s : State) (x : Reg) : (s.regsUpTo x).length = x.val + 1 := by
  simp [State.regsUpTo]

@[simp] theorem getElem_regsUpTo (s : State) (x : Reg) (k : Nat) (h : k < (s.regsUpTo x).length) :
    (s.regsUpTo x)[k] = s.v[k]'(by simp at h; omega) := by
  simp [State.regsUpTo]

theorem keyAt_some {s : State} {val : Byte} (h : val.toNat < 16) : s.keyAt val = some s.keypad[val.toNat] := dif_pos h

theorem keyAt_none {s : State} {val : Byte} (h : 15 < val.toNat) : s.keyAt val = none := dif_neg (by omega)

/-- R142: no key is pressed exactly when there is no least one. -/
theorem lowestKey_none (s : State) : s.lowestKey = none ↔ ∀ k : Reg, s.keypad[k.val] = false := by
  simp [State.lowestKey]

/-- R142: the least pressed key is pressed, and none below it is. -/
theorem lowestKey_some {s : State} {k : Reg} (h : s.lowestKey = some k) :
    s.keypad[k.val] = true ∧ ∀ j : Reg, j.val < k.val → s.keypad[j.val] = false := by
  rw [State.lowestKey, List.find?_eq_some_iff_getElem] at h
  obtain ⟨hk, i, hi, heq, hlt⟩ := h
  simp at hi heq hlt
  refine ⟨hk, fun j hj => ?_⟩
  have := hlt j.val (by rw [← heq] at hj; exact hj)
  simpa using this

theorem glyphAddress_toNat (val : Byte) : (glyphAddress val).toNat = 5 * val.toNat := by
  have := val.isLt
  simp [glyphAddress, Config.glyphLen]; omega

end Sys2Proof.Machine
end

