-- ==== Sys2Proof/Laws/Display.lean ====
section
/-! SUPPORT. What toggling a pixel, drawing a sprite row and drawing a sprite do to each pixel and to the collision flag. -/

namespace Sys2Proof.Machine

/-- Toggling turns over its own pixel and no other, and nothing off the buffer. -/
theorem pixelOf_toggle (d : Drawing) (c r c' r' : Nat) :
    pixelOf (d.toggle c r).video c' r' = (pixelOf d.video c' r' ^^ decide (c' = c ∧ r' = r ∧ c ≤ 63 ∧ r ≤ 31)) := by
  unfold Drawing.toggle
  split
  · next h =>
    unfold pixelOf
    by_cases h' : c' < 64 ∧ r' < 32
    · rw [dif_pos h', dif_pos h']
      by_cases hr : r' = r
      · subst hr
        by_cases hc : c' = c
        · subst hc; simp [h.1, h.2, h'.1]
        · have : ¬ c = c' := Ne.symm hc
          simp [hc, this]
      · have : r ≠ r' := Ne.symm hr
        simp [hr, Vector.getElem_set_ne, this]
    · rw [dif_neg h', dif_neg h']
      have : ¬ (c' = c ∧ r' = r ∧ c ≤ 63 ∧ r ≤ 31) := by omega
      simp [this]
  · next h =>
    have : ¬ (c' = c ∧ r' = r ∧ c ≤ 63 ∧ r ≤ 31) := by omega
    simp [this]

/-- Toggling collides exactly when its pixel was set. -/
theorem hit_toggle (d : Drawing) (c r : Nat) : (d.toggle c r).hit = (d.hit || pixelOf d.video c r) := by
  unfold Drawing.toggle pixelOf
  by_cases h : c ≤ 63 ∧ r ≤ 31
  · have h' : c < 64 ∧ r < 32 := by omega
    rw [dif_pos h, dif_pos h']
  · have h' : ¬ (c < 64 ∧ r < 32) := by omega
    rw [dif_neg h, dif_neg h', Bool.or_false]

/-- The first `m` pixels of a sprite row. -/
def Drawing.rowPart (d : Drawing) (bits : Byte) (x0 r m : Nat) : Drawing :=
  (List.range m).foldl (fun d c => if bits.getLsbD (7 - c) then d.toggle (x0 + c) r else d) d

theorem rowPart_succ (d : Drawing) (bits : Byte) (x0 r m : Nat) :
    d.rowPart bits x0 r (m + 1) =
      if bits.getLsbD (7 - m) then (d.rowPart bits x0 r m).toggle (x0 + m) r else d.rowPart bits x0 r m := by
  simp [Drawing.rowPart, List.range_succ]

theorem pixelOf_rowPart (d : Drawing) (bits : Byte) (x0 r m c' r' : Nat) :
    pixelOf (d.rowPart bits x0 r m).video c' r' =
      (pixelOf d.video c' r' ^^
        decide (x0 ≤ c' ∧ c' < x0 + m ∧ r' = r ∧ c' ≤ 63 ∧ r ≤ 31 ∧ bits.getLsbD (7 - (c' - x0)) = true)) := by
  induction m with
  | zero =>
    have : ¬ (x0 ≤ c' ∧ c' < x0 + 0 ∧ r' = r ∧ c' ≤ 63 ∧ r ≤ 31 ∧ bits.getLsbD (7 - (c' - x0)) = true) := by omega
    rw [decide_eq_false this, Bool.xor_false]; rfl
  | succ m ih =>
    rw [rowPart_succ]
    by_cases hc : c' = x0 + m
    · subst hc
      have h0 : ¬ (x0 ≤ x0 + m ∧ x0 + m < x0 + m ∧ r' = r ∧ x0 + m ≤ 63 ∧ r ≤ 31 ∧
          bits.getLsbD (7 - (x0 + m - x0)) = true) := by omega
      rw [decide_eq_false h0, Bool.xor_false] at ih
      have hm : x0 + m - x0 = m := by omega
      split
      · next hb => rw [pixelOf_toggle, ih]; congr 1; simp [hb]
      · next hb => rw [ih]; simp [hb]
    · have hcond : (x0 ≤ c' ∧ c' < x0 + (m + 1) ∧ r' = r ∧ c' ≤ 63 ∧ r ≤ 31 ∧ bits.getLsbD (7 - (c' - x0)) = true) ↔
          (x0 ≤ c' ∧ c' < x0 + m ∧ r' = r ∧ c' ≤ 63 ∧ r ≤ 31 ∧ bits.getLsbD (7 - (c' - x0)) = true) := by
        constructor <;> rintro ⟨h1, h2, h3⟩ <;> exact ⟨h1, by omega, h3⟩
      simp only [hcond]
      split
      · rw [pixelOf_toggle, ih]; simp [hc]
      · exact ih

theorem hit_rowPart (d : Drawing) (bits : Byte) (x0 r m : Nat) :
    (d.rowPart bits x0 r m).hit = true ↔
      d.hit = true ∨ ∃ c, c < m ∧ bits.getLsbD (7 - c) = true ∧ pixelOf d.video (x0 + c) r = true := by
  induction m with
  | zero => simp [Drawing.rowPart]
  | succ m ih =>
    rw [rowPart_succ]
    have hpix : pixelOf (d.rowPart bits x0 r m).video (x0 + m) r = pixelOf d.video (x0 + m) r := by
      rw [pixelOf_rowPart]
      have : ¬ (x0 ≤ x0 + m ∧ x0 + m < x0 + m ∧ r = r ∧ x0 + m ≤ 63 ∧ r ≤ 31 ∧
          bits.getLsbD (7 - (x0 + m - x0)) = true) := by omega
      rw [decide_eq_false this, Bool.xor_false]
    split
    · next hb =>
      rw [hit_toggle, hpix, Bool.or_eq_true, ih]
      constructor
      · rintro ((h | ⟨c, hc, h⟩) | h)
        · exact .inl h
        · exact .inr ⟨c, by omega, h⟩
        · exact .inr ⟨m, by omega, hb, h⟩
      · rintro (h | ⟨c, hc, h⟩)
        · exact .inl (.inl h)
        · rcases Nat.lt_succ_iff_lt_or_eq.mp hc with hlt | rfl
          · exact .inl (.inr ⟨c, hlt, h⟩)
          · exact .inr h.2
    · next hb =>
      rw [ih]
      constructor
      · rintro (h | ⟨c, hc, h⟩)
        · exact .inl h
        · exact .inr ⟨c, by omega, h⟩
      · rintro (h | ⟨c, hc, h⟩)
        · exact .inl h
        · rcases Nat.lt_succ_iff_lt_or_eq.mp hc with hlt | rfl
          · exact .inr ⟨c, hlt, h⟩
          · exact absurd h.1 hb

/-- R131, R133: a sprite row turns over the pixels under its set bits, bit 7 leftmost, and no others. -/
theorem pixelOf_drawRow (d : Drawing) (bits : Byte) (x0 r c' r' : Nat) :
    pixelOf (d.drawRow bits x0 r).video c' r' =
      (pixelOf d.video c' r' ^^
        decide (x0 ≤ c' ∧ c' < x0 + 8 ∧ r' = r ∧ c' ≤ 63 ∧ r ≤ 31 ∧ bits.getLsbD (7 - (c' - x0)) = true)) :=
  pixelOf_rowPart d bits x0 r 8 c' r'

/-- R131: a sprite row collides exactly when a set bit lies on a set pixel. -/
theorem hit_drawRow (d : Drawing) (bits : Byte) (x0 r : Nat) :
    (d.drawRow bits x0 r).hit = true ↔
      d.hit = true ∨ ∃ c, c < 8 ∧ bits.getLsbD (7 - c) = true ∧ pixelOf d.video (x0 + c) r = true :=
  hit_rowPart d bits x0 r 8

/-- The rows `rows` drawn with the top left corner at (`x0`, `r0`) cover column `c`, row `r`. -/
def RowsCover (rows : List Byte) (x0 r0 c r : Nat) : Prop :=
  x0 ≤ c ∧ c < x0 + 8 ∧ c ≤ 63 ∧ r0 ≤ r ∧ r < r0 + rows.length ∧ r ≤ 31 ∧
    ((rows[r - r0]?).getD 0).getLsbD (7 - (c - x0)) = true

theorem rowsCover_cons (bits : Byte) (rows : List Byte) (x0 r0 c r : Nat) :
    RowsCover (bits :: rows) x0 r0 c r ↔
      (x0 ≤ c ∧ c < x0 + 8 ∧ r = r0 ∧ c ≤ 63 ∧ r0 ≤ 31 ∧ bits.getLsbD (7 - (c - x0)) = true) ∨
        RowsCover rows x0 (r0 + 1) c r := by
  unfold RowsCover
  by_cases h : r = r0
  · subst h; simp
  · by_cases h' : r0 + 1 ≤ r
    · rw [show r - r0 = (r - (r0 + 1)) + 1 by omega]
      rw [List.getElem?_cons_succ, List.length_cons]; constructor
      · rintro ⟨a1, a2, a3, a4, a5, a6, a7⟩; exact .inr ⟨a1, a2, a3, by omega, by omega, a6, a7⟩
      · rintro (⟨_, _, a, _⟩ | ⟨a1, a2, a3, a4, a5, a6, a7⟩)
        · exact absurd a h
        · exact ⟨a1, a2, a3, by omega, by omega, a6, a7⟩
    · constructor
      · intro hh; omega
      · rintro (hh | hh) <;> omega

/-- R131, R133: the rows of a sprite turn over the pixels they cover and no others. -/
theorem pixelOf_drawRows (d : Drawing) (rows : List Byte) (x0 r0 c r : Nat) [Decidable (RowsCover rows x0 r0 c r)] :
    pixelOf (d.drawRows rows x0 r0).video c r = (pixelOf d.video c r ^^ decide (RowsCover rows x0 r0 c r)) := by
  induction rows generalizing d r0 with
  | nil => 
    have : ¬ RowsCover [] x0 r0 c r := by unfold RowsCover; simp
    simp [Drawing.drawRows, this]
  | cons bits rows ih =>
    have : Decidable (RowsCover rows x0 (r0 + 1) c r) := Classical.dec _
    rw [Drawing.drawRows, ih, pixelOf_drawRow]
    simp only [rowsCover_cons]
    by_cases h : RowsCover rows x0 (r0 + 1) c r
    · have hr : r ≠ r0 := by rcases h with ⟨_, _, _, _, _⟩; omega
      simp [h, hr]
    · simp [h]

/-- R131: the rows of a sprite collide exactly when they cover a set pixel. -/
theorem hit_drawRows (d : Drawing) (rows : List Byte) (x0 r0 : Nat) :
    (d.drawRows rows x0 r0).hit = true ↔
      d.hit = true ∨ ∃ c r, RowsCover rows x0 r0 c r ∧ pixelOf d.video c r = true := by
  induction rows generalizing d r0 with
  | nil =>
    have : ∀ c r, ¬ RowsCover [] x0 r0 c r := by intro c r; unfold RowsCover; simp
    simp [Drawing.drawRows, this]
  | cons bits rows ih =>
    rw [Drawing.drawRows, ih, hit_drawRow, or_assoc]
    apply or_congr_right
    constructor
    · rintro (⟨c, hc, hb, hp⟩ | ⟨c, r, hc, hp⟩)
      · refine ⟨x0 + c, r0, (rowsCover_cons ..).mpr (.inl ?_), hp⟩
        have : x0 + c < 64 ∧ r0 < 32 := by
          unfold pixelOf at hp; split at hp
          · assumption
          · cases hp
        refine ⟨by omega, by omega, rfl, by omega, by omega, ?_⟩
        rw [show x0 + c - x0 = c by omega]; exact hb
      · refine ⟨c, r, (rowsCover_cons ..).mpr (.inr hc), ?_⟩
        rw [pixelOf_drawRow] at hp
        have hr : r ≠ r0 := by rcases hc with ⟨_, _, _, _, _⟩; omega
        simpa [hr] using hp
    · rintro ⟨c, r, hc, hp⟩
      rcases (rowsCover_cons ..).mp hc with ⟨h1, h2, h3, h4, h5, h6⟩ | hc
      · refine .inl ⟨c - x0, by omega, h6, ?_⟩
        rw [show x0 + (c - x0) = c by omega, ← h3]; exact hp
      · refine .inr ⟨c, r, hc, ?_⟩
        rw [pixelOf_drawRow]
        have hr : r ≠ r0 := by rcases hc with ⟨_, _, _, _, _⟩; omega
        simpa [hr] using hp

/-- What `Dxyn`'s rows cover is what the claims call covered. -/
theorem rowsCover_sprite (s : State) (x y : Reg) (n c r : Nat) :
    RowsCover (s.mem.readBytes s.index.toNat n) ((s.reg x).toNat % 64) ((s.reg y).toNat % 32) c r ↔ SpriteCovers s x y n c r := by
  unfold RowsCover SpriteCovers
  simp only [Memory.length_readBytes, State.byte_eq]
  by_cases h : (s.reg y).toNat % 32 ≤ r ∧ r < (s.reg y).toNat % 32 + n
  · rw [List.getElem?_eq_getElem (by simp; omega)]; simp
  · constructor <;> (intro hh; omega)

/-- Frame buffers with equal pixels are equal. -/
theorem video_ext {a b : Vector PixelRow 32} (h : ∀ c r, c < 64 → r < 32 → pixelOf a c r = pixelOf b c r) : a = b := by
  apply Vector.ext
  intro r hr
  apply BitVec.eq_of_getLsbD_eq
  intro c hc
  have := h c r hc hr
  simpa [pixelOf, hc, hr] using this

end Sys2Proof.Machine
end

