-- ==== Sys2Proof/Laws/Flags.lean ====
section
/-! SUPPORT. The flag computations and the arithmetic they go with, on numbers. -/

namespace Sys2Proof.Machine

theorem flagByte_toNat (b : Bool) : (flagByte b).toNat = if b then 1 else 0 := by cases b <;> rfl

/-- R106: the carry is bit 8 of the wide sum. -/
theorem carryOut_iff (p q : Byte) : carryOut p q = true ↔ 255 < p.toNat + q.toNat := by simp [carryOut]

theorem notBorrow_iff (p q : Byte) : notBorrow p q = true ↔ q.toNat ≤ p.toNat := by simp [notBorrow]

/-- R108: bit 0. -/
theorem shiftedOutRight_iff (p : Byte) : shiftedOutRight p = true ↔ p.toNat % 2 = 1 := by
  simp [shiftedOutRight, BitVec.getLsbD, Nat.testBit_zero]

/-- R110: bit 7 is set from 128 on. -/
theorem shiftedOutLeft_iff (p : Byte) : shiftedOutLeft p = true ↔ 128 ≤ p.toNat := by
  have := p.isLt
  simp only [shiftedOutLeft, BitVec.getLsbD, Nat.testBit_eq_decide_div_mod_eq, decide_eq_true_eq]
  omega

theorem sub_toNat_wrap (p q : Byte) : (p - q).toNat = (p.toNat + 256 - q.toNat) % 256 := by
  have := p.isLt; have := q.isLt
  rw [BitVec.toNat_sub]; omega

end Sys2Proof.Machine
end

