-- ==== Sys2Proof/Laws/PerInstr.lean ====
section
/-! SUPPORT. Statements made once per instruction, about its encoding. -/

namespace Sys2Proof.Laws.FitsItsRow

/-- The word of a well-formed instruction fits the row of R65 that bears its name. -/
def Statement (i : Instr) : Prop :=
  i.WellFormed → ∃ row ∈ opcodeTable, row.mnemonic = i.mnemonic ∧ row.fits (encode i) = true

theorem of_T {i : Instr} (name : String) (t : Nat) (ht : t < 16)
    (hm : ⟨name, BitVec.ofNat 16 (0x1000 * t), 0xF000⟩ ∈ opcodeTable) (hn : name = i.mnemonic)
    (h : i.WellFormed → fieldT (encode i) = t) : Statement i := by
  refine fun hw => ⟨_, hm, hn, ?_⟩
  simp only [OpcodeRow.fits, beq_iff_eq]
  exact (and_F000_eq_iff _ t ht).mpr (h hw)

theorem of_TN {i : Instr} (name : String) (t n : Nat) (ht : t < 16) (hn16 : n < 16)
    (hm : ⟨name, BitVec.ofNat 16 (0x1000 * t + n), 0xF00F⟩ ∈ opcodeTable) (hn : name = i.mnemonic)
    (x y : Reg) (h : encode i = wordTxyN t x y n) : Statement i := by
  refine fun _ => ⟨_, hm, hn, ?_⟩
  simp only [OpcodeRow.fits, beq_iff_eq]
  refine (and_F00F_eq_iff _ t n ht hn16).mpr ?_
  have := x.isLt; have := y.isLt
  rw [h, fieldT_eq, fieldN_eq, wordTxyN_toNat x y ht hn16]
  omega

theorem of_TNN {i : Instr} (name : String) (t n : Nat) (ht : t < 16) (hn256 : n < 256)
    (hm : ⟨name, BitVec.ofNat 16 (0x1000 * t + n), 0xF0FF⟩ ∈ opcodeTable) (hn : name = i.mnemonic)
    (x : Reg) (h : encode i = wordTxNN t x n) : Statement i := by
  refine fun _ => ⟨_, hm, hn, ?_⟩
  simp only [OpcodeRow.fits, beq_iff_eq]
  refine (and_F0FF_eq_iff _ t n ht hn256).mpr ?_
  have := x.isLt
  rw [h, fieldT_eq, fieldNN_toNat, wordTxNN_toNat x ht hn256]
  omega

theorem fieldT_wordTNNN {t : Nat} {nnn : Word} (ht : t < 16) (h : nnn.toNat ≤ 0xFFF) : fieldT (wordTNNN t nnn) = t := by
  rw [fieldT_eq, wordTNNN_toNat ht h]; omega

theorem fieldT_wordTxNN {t : Nat} (x : Reg) (nn : Byte) (ht : t < 16) : fieldT (wordTxNN t x nn.toNat) = t := by
  have := x.isLt; have := nn.isLt
  rw [fieldT_eq, wordTxNN_toNat x ht nn.isLt]; omega

theorem fieldT_wordTxyN {t n : Nat} (x y : Reg) (ht : t < 16) (hn : n ≤ 15) : fieldT (wordTxyN t x y n) = t := by
  have := x.isLt; have := y.isLt
  rw [fieldT_eq, wordTxyN_toNat x y ht (by omega)]; omega

theorem cls : Statement .cls := fun _ => ⟨⟨"CLS", 0x00E0, 0xFFFF⟩, by decide, rfl, by decide⟩
theorem ret : Statement .ret := fun _ => ⟨⟨"RET", 0x00EE, 0xFFFF⟩, by decide, rfl, by decide⟩
theorem jp (nnn : Word) : Statement (.jp nnn) :=
  of_T "JP" 0x1 (by decide) (by decide) rfl fun h => fieldT_wordTNNN (by decide) (by simpa [Instr.WellFormed, Instr.wellFormed] using h)
theorem call (nnn : Word) : Statement (.call nnn) :=
  of_T "CALL" 0x2 (by decide) (by decide) rfl fun h => fieldT_wordTNNN (by decide) (by simpa [Instr.WellFormed, Instr.wellFormed] using h)
theorem seImm (x : Reg) (nn : Byte) : Statement (.seImm x nn) :=
  of_T "SE_IMM" 0x3 (by decide) (by decide) rfl fun _ => fieldT_wordTxNN x nn (by decide)
theorem sneImm (x : Reg) (nn : Byte) : Statement (.sneImm x nn) :=
  of_T "SNE_IMM" 0x4 (by decide) (by decide) rfl fun _ => fieldT_wordTxNN x nn (by decide)
theorem seReg (x y : Reg) : Statement (.seReg x y) := of_TN "SE_REG" 0x5 0x0 (by decide) (by decide) (by decide) rfl x y rfl
theorem ldImm (x : Reg) (nn : Byte) : Statement (.ldImm x nn) :=
  of_T "LD_IMM" 0x6 (by decide) (by decide) rfl fun _ => fieldT_wordTxNN x nn (by decide)
theorem addImm (x : Reg) (nn : Byte) : Statement (.addImm x nn) :=
  of_T "ADD_IMM" 0x7 (by decide) (by decide) rfl fun _ => fieldT_wordTxNN x nn (by decide)
theorem ldReg (x y : Reg) : Statement (.ldReg x y) := of_TN "LD_REG" 0x8 0x0 (by decide) (by decide) (by decide) rfl x y rfl
theorem or (x y : Reg) : Statement (.or x y) := of_TN "OR" 0x8 0x1 (by decide) (by decide) (by decide) rfl x y rfl
theorem and (x y : Reg) : Statement (.and x y) := of_TN "AND" 0x8 0x2 (by decide) (by decide) (by decide) rfl x y rfl
theorem xor (x y : Reg) : Statement (.xor x y) := of_TN "XOR" 0x8 0x3 (by decide) (by decide) (by decide) rfl x y rfl
theorem addReg (x y : Reg) : Statement (.addReg x y) := of_TN "ADD_REG" 0x8 0x4 (by decide) (by decide) (by decide) rfl x y rfl
theorem sub (x y : Reg) : Statement (.sub x y) := of_TN "SUB" 0x8 0x5 (by decide) (by decide) (by decide) rfl x y rfl
theorem shr (x y : Reg) : Statement (.shr x y) := of_TN "SHR" 0x8 0x6 (by decide) (by decide) (by decide) rfl x y rfl
theorem subn (x y : Reg) : Statement (.subn x y) := of_TN "SUBN" 0x8 0x7 (by decide) (by decide) (by decide) rfl x y rfl
theorem shl (x y : Reg) : Statement (.shl x y) := of_TN "SHL" 0x8 0xE (by decide) (by decide) (by decide) rfl x y rfl
theorem sneReg (x y : Reg) : Statement (.sneReg x y) := of_TN "SNE_REG" 0x9 0x0 (by decide) (by decide) (by decide) rfl x y rfl
theorem ldI (nnn : Word) : Statement (.ldI nnn) :=
  of_T "LD_I" 0xA (by decide) (by decide) rfl fun h => fieldT_wordTNNN (by decide) (by simpa [Instr.WellFormed, Instr.wellFormed] using h)
theorem jpV0 (nnn : Word) : Statement (.jpV0 nnn) :=
  of_T "JP_V0" 0xB (by decide) (by decide) rfl fun h => fieldT_wordTNNN (by decide) (by simpa [Instr.WellFormed, Instr.wellFormed] using h)
theorem rnd (x : Reg) (nn : Byte) : Statement (.rnd x nn) :=
  of_T "RND" 0xC (by decide) (by decide) rfl fun _ => fieldT_wordTxNN x nn (by decide)
theorem drw (x y : Reg) (n : Nat) : Statement (.drw x y n) :=
  of_T "DRW" 0xD (by decide) (by decide) rfl fun h => fieldT_wordTxyN x y (by decide) (by simpa [Instr.WellFormed, Instr.wellFormed] using h)
theorem skp (x : Reg) : Statement (.skp x) := of_TNN "SKP" 0xE 0x9E (by decide) (by decide) (by decide) rfl x rfl
theorem sknp (x : Reg) : Statement (.sknp x) := of_TNN "SKNP" 0xE 0xA1 (by decide) (by decide) (by decide) rfl x rfl
theorem ldVxDt (x : Reg) : Statement (.ldVxDt x) := of_TNN "LD_VX_DT" 0xF 0x07 (by decide) (by decide) (by decide) rfl x rfl
theorem ldVxK (x : Reg) : Statement (.ldVxK x) := of_TNN "LD_VX_K" 0xF 0x0A (by decide) (by decide) (by decide) rfl x rfl
theorem ldDtVx (x : Reg) : Statement (.ldDtVx x) := of_TNN "LD_DT_VX" 0xF 0x15 (by decide) (by decide) (by decide) rfl x rfl
theorem ldStVx (x : Reg) : Statement (.ldStVx x) := of_TNN "LD_ST_VX" 0xF 0x18 (by decide) (by decide) (by decide) rfl x rfl
theorem addI (x : Reg) : Statement (.addI x) := of_TNN "ADD_I" 0xF 0x1E (by decide) (by decide) (by decide) rfl x rfl
theorem ldF (x : Reg) : Statement (.ldF x) := of_TNN "LD_F" 0xF 0x29 (by decide) (by decide) (by decide) rfl x rfl
theorem ldB (x : Reg) : Statement (.ldB x) := of_TNN "LD_B" 0xF 0x33 (by decide) (by decide) (by decide) rfl x rfl
theorem stRegs (x : Reg) : Statement (.stRegs x) := of_TNN "ST_REGS" 0xF 0x55 (by decide) (by decide) (by decide) rfl x rfl
theorem ldRegs (x : Reg) : Statement (.ldRegs x) := of_TNN "LD_REGS" 0xF 0x65 (by decide) (by decide) (by decide) rfl x rfl

end Sys2Proof.Laws.FitsItsRow
end

