-- ==== Sys2Proof/Laws/Step.lean ====
section
/-! SUPPORT. Everything a step, and each instruction whose meaning branches on more than a range check, can answer. -/

namespace Sys2Proof.Machine

/-- Everything a step of the core that answers a next state can have done (R80, R85, R87, R152). -/
theorem coreStep_cases {s t : State} (h : coreStep s = .next t) :
    (s.fault ≠ none ∧ t = s) ∨
      (s.fault = none ∧ 1 ≤ s.stepsPerTick ∧ 4095 ≤ s.pc.toNat ∧ t = { s with fault := some ⟨.fetchOutOfRange, s.pc⟩ }) ∨
      (s.fault = none ∧ 1 ≤ s.stepsPerTick ∧ s.pc.toNat ≤ 4094 ∧ ∃ op i u, fetch s = some op ∧ decode op = .ok i ∧
        exec i s = .next u ∧ t = if u.fault.isSome then u else finishStep op u) ∨
      (s.fault = none ∧ 1 ≤ s.stepsPerTick ∧ s.pc.toNat ≤ 4094 ∧ ∃ op r, fetch s = some op ∧ decode op = .error r ∧
        t = finishStep op (unknownOpcode op s)) := by
  by_cases hf : s.fault = none
  · by_cases hz : s.stepsPerTick = 0
    · simp [coreStep, hf, hz] at h
    · have hn : 1 ≤ s.stepsPerTick := by omega
      rw [coreStep_running hf hn, runStep] at h
      by_cases hp : s.pc.toNat ≤ 4094
      · rw [fetch_inside hp] at h ⊢
        generalize wordOfBytes _ _ = op at h ⊢
        cases hd : decode op with
        | error r =>
          simp only [hd, Host.Outcome.next.injEq] at h
          exact .inr (.inr (.inr ⟨hf, hn, hp, op, r, rfl, hd, h.symm⟩))
        | ok i =>
          cases he : exec i s with
          | fault r => cases r
          | refused r => simp [hd, he, endInstruction] at h
          | next u =>
            simp only [hd, he, endInstruction, Host.Outcome.next.injEq] at h
            exact .inr (.inr (.inl ⟨hf, hn, hp, op, i, u, rfl, hd, he, h.symm⟩))
      · rw [fetch_outside (by omega)] at h
        exact .inr (.inl ⟨hf, hn, by omega, (Host.Outcome.next.inj h).symm⟩)
  · simp [coreStep, Option.isSome_iff_ne_none.mpr hf] at h
    exact .inl ⟨hf, h.symm⟩

/-- Everything a step that answers a next state can have done: the host's operation, a step the host requested, or a step on an
empty queue; `coreStep_cases` says the rest. -/
theorem step_cases {s t : State} (h : step s = .next t) :
    (∃ o rest, s.host = o :: rest ∧ asksForStep o = false ∧ t = hostOp o { s with host := rest }) ∨
      (∃ n rest, s.host = .requestStep n :: rest ∧ coreStep { s with host := rest, stepsPerTick := n } = .next t) ∨
      (s.host = [] ∧ coreStep s = .next t) := by
  cases hh : s.host with
  | nil => rw [step_noHostOp hh] at h; exact .inr (.inr ⟨rfl, h⟩)
  | cons o rest =>
    by_cases ho : asksForStep o = false
    · rw [step_hostOp hh ho] at h
      exact .inl ⟨o, rest, rfl, ho, (Host.Outcome.next.inj h).symm⟩
    · cases o with
      | requestStep n => rw [step_requestStep hh] at h; exact .inr (.inl ⟨n, rest, rfl, h⟩)
      | powerOnReset | warmReset | loadProgram _ _ | setKey _ _ | clearDrawFlag | setStepsPerTick _ => exact absurd rfl ho

/-- R90: everything a return can do. -/
theorem execRet_cases (s : State) :
    (s.sp.val = 0 ∧ execRet s = raise .stackUnderflow s.pc s) ∨
      ∃ h : 0 < s.sp.val, execRet s =
        .next { s with pc := s.stack[s.sp.val - 1]'(by omega), sp := ⟨s.sp.val - 1, by omega⟩ } := by
  by_cases h : s.sp.val = 0
  · left; refine ⟨h, ?_⟩; simp only [execRet, pop_empty (s := s.advance) h]
  · right; refine ⟨by omega, ?_⟩
    simp only [execRet, pop_some (s := s.advance) (show 0 < s.sp.val by omega)]; rfl

/-- R92: everything a call can do. -/
theorem execCall_cases (nnn : Word) (s : State) :
    (s.sp.val = 16 ∧ execCall nnn s = raise .stackOverflow s.pc s) ∨
      ∃ h : s.sp.val < 16, execCall nnn s =
        .next { s with
          pc := nnn, stack := s.stack.set s.sp.val (s.pc + 2) h, sp := ⟨s.sp.val + 1, by omega⟩ } := by
  have := s.sp.isLt
  by_cases h : s.sp.val = 16
  · left; refine ⟨h, ?_⟩; simp only [execCall, push_full (s := s.advance) h]
  · right; refine ⟨by omega, ?_⟩
    simp only [execCall, push_free (s := s.advance) (show s.sp.val < 16 by omega)]; rfl

/-- R142: everything a wait for a key can do. -/
theorem execLdVxK_cases (x : Reg) (s : State) :
    (s.lowestKey = none ∧ execLdVxK x s = .next s) ∨
      ∃ k, s.lowestKey = some k ∧ execLdVxK x s = .next (s.advance.setReg x (BitVec.ofNat 8 k.val)) := by
  unfold execLdVxK
  cases h : s.lowestKey with
  | none => left; exact ⟨rfl, by simp [State.jump, State.advance]⟩
  | some k => right; exact ⟨k, rfl, rfl⟩

end Sys2Proof.Machine
end

