-- ==== Sys2Proof/Tests/Slice0.lean ====
section
/-! SUPPORT. Tests. Expected values are taken from spec/95_test_vectors.md (its test names stand at each theorem) and from the
encodings of 30_encoding.md R65. At the end, for every obligation with hypotheses, states and operands that meet them. -/

open Sys2Proof Sys2Proof.Machine

namespace Sys2Proof.Tests

/-! ### WellFormed refuses ill-formed terms -/

theorem test_wf_address_too_wide :
    ¬ (Instr.jp 0x1000).WellFormed ∧ ¬ (Instr.call 0x1000).WellFormed ∧ ¬ (Instr.ldI 0xFFFF).WellFormed ∧
      ¬ (Instr.jpV0 0x1000).WellFormed := by decide

theorem test_wf_row_count_too_large : ¬ (Instr.drw 0 0 16).WellFormed ∧ (Instr.drw 0 0 15).WellFormed := by decide

theorem test_wf_address_at_limit :
    (Instr.jp 0xFFF).WellFormed ∧ (Instr.call 0xFFF).WellFormed ∧ (Instr.ldI 0xFFF).WellFormed ∧
      (Instr.jpV0 0xFFF).WellFormed := by decide

theorem test_wf_steps_per_tick :
    ¬ (HostOp.setStepsPerTick 0).WellFormed ∧ (HostOp.setStepsPerTick 1).WellFormed ∧ ¬ (HostOp.requestStep 0).WellFormed ∧
      (HostOp.requestStep 1).WellFormed := by decide

/-! ### Decoding, on words written out bit by bit from R65: every constructor -/

theorem test_decode_00E0 : decode 0b0000_0000_1110_0000 = .ok .cls := by decide
theorem test_decode_00EE : decode 0b0000_0000_1110_1110 = .ok .ret := by decide
theorem test_decode_1nnn : decode 0b0001_1010_1011_1100 = .ok (.jp 0xABC) := by decide
theorem test_decode_2nnn : decode 0b0010_0011_0000_0001 = .ok (.call 0x301) := by decide
theorem test_decode_3xnn : decode 0b0011_1010_0100_0010 = .ok (.seImm 10 0x42) := by decide
theorem test_decode_4xnn : decode 0b0100_1011_1000_0001 = .ok (.sneImm 11 0x81) := by decide
theorem test_decode_5xy0 : decode 0b0101_1010_1011_0000 = .ok (.seReg 10 11) := by decide
theorem test_decode_6xnn : decode 0b0110_1111_0010_1010 = .ok (.ldImm 15 0x2A) := by decide
theorem test_decode_7xnn : decode 0b0111_0001_1111_1111 = .ok (.addImm 1 0xFF) := by decide
theorem test_decode_8xy0 : decode 0b1000_0001_0010_0000 = .ok (.ldReg 1 2) := by decide
theorem test_decode_8xy1 : decode 0b1000_0001_0010_0001 = .ok (.or 1 2) := by decide
theorem test_decode_8xy2 : decode 0b1000_0001_0010_0010 = .ok (.and 1 2) := by decide
theorem test_decode_8xy3 : decode 0b1000_0001_0010_0011 = .ok (.xor 1 2) := by decide
theorem test_decode_8xy4 : decode 0b1000_0001_0010_0100 = .ok (.addReg 1 2) := by decide
theorem test_decode_8xy5 : decode 0b1000_0001_0010_0101 = .ok (.sub 1 2) := by decide
theorem test_decode_8xy6 : decode 0b1000_0001_0010_0110 = .ok (.shr 1 2) := by decide
theorem test_decode_8xy7 : decode 0b1000_0001_0010_0111 = .ok (.subn 1 2) := by decide
theorem test_decode_8xyE : decode 0b1000_0001_0010_1110 = .ok (.shl 1 2) := by decide
theorem test_decode_9xy0 : decode 0b1001_1010_1011_0000 = .ok (.sneReg 10 11) := by decide
theorem test_decode_Annn : decode 0b1010_0010_1111_0000 = .ok (.ldI 0x2F0) := by decide
theorem test_decode_Bnnn : decode 0b1011_0011_0000_0000 = .ok (.jpV0 0x300) := by decide
theorem test_decode_Cxnn : decode 0b1100_0111_0011_1100 = .ok (.rnd 7 0x3C) := by decide
theorem test_decode_Dxyn : decode 0b1101_0001_0010_0101 = .ok (.drw 1 2 5) := by decide
theorem test_decode_Ex9E : decode 0b1110_0011_1001_1110 = .ok (.skp 3) := by decide
theorem test_decode_ExA1 : decode 0b1110_0011_1010_0001 = .ok (.sknp 3) := by decide
theorem test_decode_Fx07 : decode 0b1111_0100_0000_0111 = .ok (.ldVxDt 4) := by decide
theorem test_decode_Fx0A : decode 0b1111_0100_0000_1010 = .ok (.ldVxK 4) := by decide
theorem test_decode_Fx15 : decode 0b1111_0100_0001_0101 = .ok (.ldDtVx 4) := by decide
theorem test_decode_Fx18 : decode 0b1111_0100_0001_1000 = .ok (.ldStVx 4) := by decide
theorem test_decode_Fx1E : decode 0b1111_0100_0001_1110 = .ok (.addI 4) := by decide
theorem test_decode_Fx29 : decode 0b1111_0100_0010_1001 = .ok (.ldF 4) := by decide
theorem test_decode_Fx33 : decode 0b1111_0100_0011_0011 = .ok (.ldB 4) := by decide
theorem test_decode_Fx55 : decode 0b1111_0100_0101_0101 = .ok (.stRegs 4) := by decide
theorem test_decode_Fx65 : decode 0b1111_0100_0110_0101 = .ok (.ldRegs 4) := by decide

/-- R66, R67, X5 to X8, AL31: words that miss one fixed digit. -/
theorem test_decode_rejects :
    decode 0x00E1 = .error (.unrecognised0 0x00E1) ∧ decode 0x0123 = .error (.unrecognised0 0x0123) ∧
      decode 0x5011 = .error (.unrecognised5 0x5011) ∧ decode 0x8018 = .error (.unrecognised8 0x8018) ∧
      decode 0x801F = .error (.unrecognised8 0x801F) ∧ decode 0x9AB2 = .error (.unrecognised9 0x9AB2) ∧
      decode 0xE09F = .error (.unrecognisedE 0xE09F) ∧ decode 0xF000 = .error (.unrecognisedF 0xF000) := by decide

/-- R42, R60: bytes in memory order, the rest given back, a lone byte rejected. -/
theorem test_decodeBytes :
    decodeBytes [0x12, 0x0A, 0xFF] = .ok (.jp 0x20A, [0xFF]) ∧ decodeBytes [0x12] = .error .truncated := by decide

theorem test_encodeBytes : encodeBytes (.drw 1 2 5) = [0xD1, 0x25] := by decide

theorem test_decodeTableWord : decodeTableWord 16 0xD125 = some (.drw 1 2 5) ∧ decodeTableWord 16 0x0000 = none := by decide

/-- R65: no two rows of the opcode map fit one word. -/
theorem test_opcode_rows_disjoint :
    opcodeTable.Pairwise fun a b => (a.fixed ^^^ b.fixed) &&& (a.mask &&& b.mask) ≠ 0 := by decide

/-! ### One step of a small state -/

/-- What `f` sees of the state after one step. -/
def after {α : Type} (f : State → α) (s : State) : Option α :=
  match step s with
  | .next t => some (f t)
  | .fault _ => none
  | .refused _ => none

theorem next_of_after {α : Type} {f : State → α} {s : State} {a : α} (h : after f s = some a) :
    ∃ t, step s = .next t ∧ f t = a := by
  unfold after at h
  split at h
  · next t ht => exact ⟨t, ht, Option.some.inj h⟩
  · cases h
  · cases h

/-- The state after reset with an instruction where the next step fetches it. -/
def ready (w : Nat) : State := State.reset.withFetchWord 16 w

/-- With registers set, as pairs of a number and a value. -/
def regs (s : State) (l : List (Reg × Byte)) : State := l.foldl (fun s p => s.setReg p.1 p.2) s

/-- With a byte in memory and `I` at it. -/
def sprite (s : State) (bits : Byte) : State := { s.storeBytes 0x300 [bits] with index := 0x300 }

/-- DR1 -/
theorem test_cls :
    after (fun t => (t.pixel 5 0, t.drawFlag, t.pc))
      { ready 0x00E0 with video := State.reset.video.set 0 32, drawFlag := false } = some (false, true, 0x202) := by decide
/-- T7 -/
theorem test_ret :
    after (fun t => (t.sp, t.pc, t.stack[1]))
      { ready 0x00EE with sp := 2, stack := (State.reset.stack.set 1 0xABC).set 0 0x222 } = some (1, 0xABC, 0xABC) := by decide
/-- T6 -/
theorem test_ret_underflow :
    after id (ready 0x00EE) = some { ready 0x00EE with fault := some ⟨.stackUnderflow, 0x200⟩ } := by decide
/-- T1 -/
theorem test_jp : after State.pc (ready 0x1ABC) = some 0xABC := by decide
/-- T4 -/
theorem test_call :
    after (fun t => (t.stack[15], t.sp, t.pc)) { ready 0x2300 with sp := 15 } = some (0x202, 16, 0x300) := by decide
/-- T5 -/
theorem test_call_overflow :
    after id { ready 0x2300 with sp := 16 } =
      some { ready 0x2300 with sp := 16, fault := some ⟨.stackOverflow, 0x200⟩ } := by decide
/-- T8, T9 -/
theorem test_seImm :
    after State.pc (regs (ready 0x3A42) [(10, 0x42)]) = some 0x204 ∧
      after State.pc (regs (ready 0x3A42) [(10, 0x43)]) = some 0x202 := by decide
/-- T10, T11 -/
theorem test_sneImm :
    after State.pc (regs (ready 0x4A42) [(10, 0x42)]) = some 0x202 ∧
      after State.pc (regs (ready 0x4A42) [(10, 0x43)]) = some 0x204 := by decide
/-- T12 -/
theorem test_seReg :
    after State.pc (regs (ready 0x5AB0) [(10, 7), (11, 7)]) = some 0x204 ∧
      after State.pc (regs (ready 0x5AB0) [(10, 7)]) = some 0x202 := by decide
/-- T14 -/
theorem test_sneReg :
    after State.pc (regs (ready 0x9AB0) [(10, 7), (11, 8)]) = some 0x204 ∧ after State.pc (ready 0x9AA0) = some 0x202 := by decide
/-- AL1 -/
theorem test_ldImm : after (·.reg 15) (ready 0x6F2A) = some 0x2A := by decide
/-- S2 -/
theorem test_addImm :
    after (fun t => (t.reg 0, t.reg 15)) (regs (ready 0x7001) [(0, 0xFF), (15, 1)]) = some (0, 1) := by decide
/-- AL4 -/
theorem test_ldReg :
    after (fun t => (t.reg 0, t.reg 15)) (regs (ready 0x8010) [(1, 0x77), (15, 1)]) = some (0x77, 1) := by decide
/-- AL5 -/
theorem test_or :
    after (fun t => (t.reg 0, t.reg 15)) (regs (ready 0x8011) [(0, 0xF0), (1, 0x0F), (15, 1)]) = some (0xFF, 1) := by decide
/-- AL6 -/
theorem test_and :
    after (fun t => (t.reg 0, t.reg 15)) (regs (ready 0x8012) [(0, 0xF0), (1, 0x3C), (15, 1)]) = some (0x30, 1) := by decide
/-- AL7 -/
theorem test_xor :
    after (fun t => (t.reg 0, t.reg 15)) (regs (ready 0x8013) [(0, 0xF0), (1, 0x3C), (15, 1)]) = some (0xCC, 1) := by decide
/-- AL9, AL13 -/
theorem test_addReg :
    after (fun t => (t.reg 0, t.reg 15)) (regs (ready 0x8014) [(0, 0xC8), (1, 0x64)]) = some (0x2C, 1) ∧
      after (fun t => (t.reg 1, t.reg 15)) (regs (ready 0x81F4) [(1, 5), (15, 3)]) = some (8, 0) := by decide
/-- AL12 -/
theorem test_addReg_flag_wins : after (·.reg 15) (regs (ready 0x8F14) [(15, 0xFF), (1, 2)]) = some 1 := by decide
/-- S4 -/
theorem test_sub :
    after (fun t => (t.reg 0, t.reg 15)) (regs (ready 0x8015) [(0, 5), (1, 10)]) = some (0xFB, 0) := by decide
/-- AL15 -/
theorem test_sub_equal :
    after (fun t => (t.reg 0, t.reg 15)) (regs (ready 0x8015) [(0, 7), (1, 7)]) = some (0, 1) := by decide
/-- AL18 -/
theorem test_shr :
    after (fun t => (t.reg 0, t.reg 1, t.reg 15)) (regs (ready 0x8016) [(0, 5), (1, 0xFF)]) = some (2, 0xFF, 1) := by decide
/-- AL21 -/
theorem test_shr_flag_wins : after (·.reg 15) (regs (ready 0x8F16) [(15, 2)]) = some 0 := by decide
/-- AL23 -/
theorem test_subn :
    after (fun t => (t.reg 0, t.reg 15)) (regs (ready 0x8017) [(0, 10), (1, 5)]) = some (0xFB, 0) := by decide
/-- AL25 -/
theorem test_shl :
    after (fun t => (t.reg 0, t.reg 1, t.reg 15)) (regs (ready 0x801E) [(0, 0x81), (1, 0xFF)]) = some (2, 0xFF, 1) := by decide
/-- M1 -/
theorem test_ldI : after State.index (ready 0xAFFF) = some 0xFFF := by decide
/-- T17 -/
theorem test_jpV0 : after State.pc (regs (ready 0xBFFF) [(0, 255)]) = some 0x10FE := by decide
/-- T18: the register is `V0`, not `V[x]`. -/
theorem test_jpV0_register : after State.pc (regs (ready 0xB300) [(3, 0x55)]) = some 0x300 := by decide
/-- AL29, on `exec`: whatever the random byte is. -/
theorem test_rnd_mask_zero : ∃ t, exec (.rnd 0 0) State.reset = .next t ∧ t.reg 0 = 0 :=
  ⟨_, rfl, BitVec.and_zero⟩
/-- AL30, on `exec`: the whole random byte of the first draw. -/
theorem test_rnd_mask_ones : ∃ t, exec (.rnd 0 0xFF) State.reset = .next t ∧ t.reg 0 = Config.rnd 0 :=
  ⟨_, rfl, BitVec.and_allOnes⟩
/-- DR4 -/
theorem test_drw_clips :
    after (fun t => (t.video[31], t.video[0], t.reg 15)) (regs (sprite (ready 0xD011) 0xFF) [(0, 126), (1, 63)]) =
      some (0xC000000000000000, 0, 0) := by decide
/-- DR11, DR3 -/
theorem test_drw_collides :
    after (fun t => (t.video[0], t.reg 15)) { sprite (ready 0xD011) 0xC0 with video := State.reset.video.set 0 1 } =
      some (2, 1) ∧
    after (fun t => (t.pixel 7 0, t.pixel 0 0)) (sprite (ready 0xD011) 0x01) = some (true, false) := by decide
/-- K1, K4 -/
theorem test_skp :
    after State.pc (regs { ready 0xE09E with keypad := State.reset.keypad.set 15 true } [(0, 15)]) = some 0x204 ∧
      after State.fault (regs (ready 0xE09E) [(0, 16)]) = some (some ⟨.keyIndexOutOfRange, 0x10⟩) := by decide
/-- K3, K5 -/
theorem test_sknp :
    after State.pc (regs (ready 0xE0A1) [(0, 15)]) = some 0x204 ∧
      after State.fault (regs (ready 0xE0A1) [(0, 255)]) = some (some ⟨.keyIndexOutOfRange, 0xFF⟩) := by decide
/-- K10 -/
theorem test_ldVxDt :
    after (fun t => (t.reg 1, t.dt, t.tickCount)) { ready 0xF107 with dt := 0x2C, tickCount := 8 } = some (0x2C, 0x2B, 0) := by decide
/-- K6 -/
theorem test_ldVxK_waits :
    after (fun t => (t.pc, t.v, t.opcode, t.tickCount)) (ready 0xF30A) = some (0x200, State.reset.v, 0xF30A, 1) := by decide
/-- K7 -/
theorem test_ldVxK_takes_least :
    after (fun t => (t.pc, t.reg 3)) { ready 0xF30A with keypad := (State.reset.keypad.set 7 true).set 12 true } =
      some (0x202, 7) := by decide
/-- K11 -/
theorem test_ldDtVx :
    after (fun t => (t.dt, t.tickCount)) (regs { ready 0xF015 with tickCount := 8 } [(0, 5)]) = some (4, 0) := by decide
/-- K13 -/
theorem test_ldStVx :
    after (fun t => (t.st, t.soundActive)) (regs (ready 0xF018) [(0, 0x1E)]) = some (0x1E, true) := by decide
/-- M2, M3 -/
theorem test_addI :
    after State.index (regs { ready 0xF01E with index := 0xFF0 } [(0, 0x20)]) = some 0x1010 ∧
      after State.index (regs { ready 0xF01E with index := 0xFFFF } [(0, 2)]) = some 1 := by decide
/-- M4, M5 -/
theorem test_ldF :
    after State.index (regs (ready 0xF029) [(0, 10)]) = some 0x32 ∧
      after State.index (regs (ready 0xF029) [(0, 0xFF)]) = some 0x4FB := by decide
/-- M7 -/
theorem test_ldB :
    after (fun t => (t.byte 0xFFD, t.byte 0xFFE, t.byte 0xFFF, t.index)) (regs { ready 0xF033 with index := 0xFFD } [(0, 255)]) =
      some (2, 5, 5, 0xFFD) := by decide
/-- M8 -/
theorem test_ldB_fault :
    after (fun t => (t.fault, t.byte 0xFFE, t.pc)) (regs { ready 0xF033 with index := 0xFFE } [(0, 255)]) =
      some (some ⟨.dataWriteOutOfRange, 0x1000⟩, 0, 0x200) := by decide
/-- S9 -/
theorem test_stRegs :
    after (fun t => (t.byte 0x300, t.byte 0x301, t.byte 0x302, t.index))
      (regs { ready 0xF255 with index := 0x300 } [(0, 0x11), (1, 0x22), (2, 0x33)]) = some (0x11, 0x22, 0x33, 0x303) := by decide
/-- M10 -/
theorem test_stRegs_fault :
    after (fun t => (t.fault, t.byte 0xFFF, t.index)) (regs { ready 0xF155 with index := 0xFFF } [(0, 0xAB)]) =
      some (some ⟨.dataWriteOutOfRange, 0x1000⟩, 0, 0xFFF) := by decide
/-- S9, the load; `V[3]` is not loaded. -/
theorem test_ldRegs :
    after (fun t => (t.reg 0, t.reg 1, t.reg 2, t.reg 3, t.index))
      (regs { (ready 0xF265).storeBytes 0x300 [0x11, 0x22, 0x33, 0x44] with index := 0x300 } [(3, 9)]) =
      some (0x11, 0x22, 0x33, 9, 0x303) := by decide
/-- M13 -/
theorem test_ldRegs_fault :
    after State.fault { ready 0xF065 with index := 0xFFFF } = some (some ⟨.dataReadOutOfRange, 0xFFFF⟩) := by decide

/-- S13: an unrecognised word. -/
theorem test_unrecognised :
    after id (ready 0x0000) =
      some { ready 0x0000 with pc := 0x202, tickCount := 1, events := [⟨0x200, 0⟩] } := by decide
/-- X3: an odd `pc`. -/
theorem test_odd_pc :
    after (fun t => (t.reg 10, t.pc)) ({ State.reset with pc := 0x201 }.storeBytes 0x201 [0x6A, 0x2F]) = some (0x2F, 0x203) := by decide
/-- X2 -/
theorem test_fetch_fault :
    after State.fault { State.reset with pc := 0xFFF } = some (some ⟨.fetchOutOfRange, 0xFFF⟩) := by decide
/-- X4: the default font fetched as a word. -/
theorem test_fetch_font : after State.events { State.reset with pc := 0 } = some [⟨0, 0xF090⟩] := by decide
/-- X11 -/
theorem test_resets :
    after (·.byte 0) { State.reset.storeBytes 0 [0x99] with host := [.warmReset] } = some 0x99 ∧
      after (·.byte 0) { State.reset.storeBytes 0 [0x99] with host := [.powerOnReset] } = some 0xF0 := by decide
/-- X12 -/
theorem test_load :
    after (fun t => t.mem) { State.reset.storeBytes 0x200 [0x60, 1, 0x61] with host := [.loadProgram 2 [0x12, 0]] } =
      some [(0x200, 0x12), (0x202, 0x61)] := by decide

/-- K6 with K14: a requested step runs with the threshold it brings, and leaves what is pending behind it. -/
theorem test_requestStep :
    after (fun t => (t.pc, t.tickCount, t.dt, t.host))
      { ready 0xF30A with dt := 3, host := [.requestStep 1, .setKey 7 true] } = some (0x200, 0, 2, [.setKey 7 true]) := by decide

/-! ### Witnesses: states and operands that meet the hypotheses of each obligation that has any -/

theorem test_witness_DecodeOfEncode :
    (Instr.drw 15 15 15).WellFormed ∧ (Instr.jp 0xFFF).WellFormed ∧ (Instr.rnd 15 0xFF).WellFormed := by decide
theorem test_witness_EncodeOfDecode : decode 0xDFFF = .ok (.drw 15 15 15) := by decide
theorem test_witness_FetchIsBigEndian :
    ({ State.reset with pc := 4094 } : State).pc.toNat ≤ 4094 ∧ ({ State.reset with pc := 0x201 } : State).pc.toNat ≤ 4094 := by
  decide

/-- The state after reset with `pc` at the last word, which is `6A2F`. -/
def lastWord : State := { State.reset with pc := 4094 }.storeBytes 4094 [0x6A, 0x2F]

theorem test_witness_StepRunsDecodedInstruction :
    lastWord.Running ∧ lastWord.pc.toNat ≤ 4094 ∧
      decode (wordOfBytes (lastWord.byte lastWord.pc.toNat) (lastWord.byte (lastWord.pc.toNat + 1))) = .ok (.ldImm 10 0x2F) :=
  ⟨⟨rfl, rfl, by decide⟩, by decide, by decide⟩
theorem test_witness_UnrecognisedWordOnlyAdvances :
    ({ State.reset with pc := 4094 } : State).Running ∧ ({ State.reset with pc := 4094 } : State).pc.toNat ≤ 4094 ∧
      decode (wordOfBytes (({ State.reset with pc := 4094 } : State).byte 4094)
        (({ State.reset with pc := 4094 } : State).byte 4095)) = .error (.unrecognised0 0) :=
  ⟨⟨rfl, rfl, by decide⟩, by decide, by decide⟩
theorem test_witness_FetchBeyondMemoryFaults :
    ({ State.reset with pc := 4095 } : State).Running ∧ 4095 ≤ ({ State.reset with pc := 4095 } : State).pc.toNat :=
  ⟨⟨rfl, rfl, by decide⟩, by decide⟩

/-- A halted core. -/
def halted : State := { State.reset with fault := some ⟨.stackUnderflow, 0x200⟩ }

theorem test_witness_HaltedCoreIgnoresSteps : halted.host = [] ∧ halted.fault ≠ none := by decide
theorem test_witness_ZeroStepsPerTickIsRefused :
    ({ State.reset with stepsPerTick := 0 } : State).host = [] ∧ ({ State.reset with stepsPerTick := 0 } : State).fault = none ∧
      ({ State.reset with stepsPerTick := 0 } : State).stepsPerTick = 0 := by decide
theorem test_witness_InstructionsFaultExactlyAsTabulated :
    faultOf (.stRegs 15) { State.reset with index := 0xFF1 } = some ⟨.dataWriteOutOfRange, 0x1000⟩ ∧
      faultOf (.stRegs 15) { State.reset with index := 0xFF0 } = none ∧
      faultOf (.drw 0 0 1) { State.reset with index := 0x1000 } = some ⟨.dataReadOutOfRange, 0x1000⟩ ∧
      faultOf (.drw 0 0 0) { State.reset with index := 0x1000 } = none := by decide
theorem test_witness_FaultingStepChangesOnlyTheLatch :
    (ready 0x00EE).host = [] ∧ ∃ t, step (ready 0x00EE) = .next t ∧ decide (t.fault ≠ (ready 0x00EE).fault) = true :=
  ⟨rfl, next_of_after (by decide)⟩
theorem test_witness_LatchHoldsUntilReset :
    (halted.fault = some ⟨.stackUnderflow, 0x200⟩ ∧ ∃ t, step halted = .next t ∧ t.fault = some ⟨.stackUnderflow, 0x200⟩) ∧
      ∃ t, step { halted with host := [.warmReset] } = .next t ∧ t.fault = none :=
  ⟨⟨rfl, next_of_after (by decide)⟩, next_of_after (by decide)⟩
theorem test_witness_AddRegisterResult : (14 : Reg) ≠ 15 := by decide
theorem test_witness_SubtractResults : (0 : Reg) ≠ 15 := by decide
theorem test_witness_ShiftResults : (1 : Reg) ≠ 15 := by decide
theorem test_witness_RandomByteResult : (15 : Reg) ≠ 14 := by decide
theorem test_witness_JumpResults : (0xFFF : Word).toNat ≤ 0xFFF := by decide
theorem test_witness_CallResult :
    ({ State.reset with sp := 15 } : State).sp.val < 16 ∧ (15 : Fin 16).val = ({ State.reset with sp := 15 } : State).sp.val := by
  decide
theorem test_witness_ReturnResult :
    0 < ({ State.reset with sp := 16 } : State).sp.val ∧
      (15 : Fin 16).val + 1 = ({ State.reset with sp := 16 } : State).sp.val ∧
      0 < ({ State.reset with sp := 1 } : State).sp.val := by decide
theorem test_witness_CallThenReturnRoundTrip :
    ({ State.reset with sp := 15 } : State).sp.val < 16 ∧ ({ State.reset with sp := 0 } : State).sp.val < 16 := by decide
theorem test_witness_LoadIndexResult : (0xFFF : Word).toNat ≤ 0xFFF := by decide
theorem test_witness_DecimalStoreResult : ({ State.reset with index := 0xFFD } : State).index.toNat + 2 ≤ 4095 := by decide
theorem test_witness_StoreRegistersResult :
    ({ State.reset with index := 0xFF0 } : State).index.toNat + (15 : Reg).val ≤ 4095 ∧
      ({ State.reset with index := 0xFFF } : State).index.toNat + (0 : Reg).val ≤ 4095 := by decide
theorem test_witness_LoadRegistersResult :
    ({ State.reset with index := 0xFF0 } : State).index.toNat + (15 : Reg).val ≤ 4095 := by decide
theorem test_witness_StoreThenLoadRegistersRoundTrip :
    ({ State.reset with index := 0xFF0 } : State).index.toNat + (15 : Reg).val ≤ 4095 := by decide
theorem test_witness_StoredWordIsFetchedNext :
    1 ≤ (1 : Reg).val ∧
      ({ State.reset with pc := 0xFFC, index := 0xFFE } : State).index.toNat =
        ({ State.reset with pc := 0xFFC, index := 0xFFE } : State).pc.toNat + 2 ∧
      ({ State.reset with pc := 0xFFC, index := 0xFFE } : State).index.toNat + (1 : Reg).val ≤ 4095 := by decide

/-- A state whose sprite of one row, `80`, drawn at (`V[0]`, `V[1]`), covers the last pixel. -/
def corner : State := regs (sprite State.reset 0x80) [(0, 63), (1, 31)]

theorem test_witness_DrawSpriteResult :
    corner.index.toNat + (1 - 1) ≤ 4095 ∧ SpriteCovers corner 0 1 1 63 31 ∧ ¬ SpriteCovers corner 0 1 1 62 31 ∧
      ({ State.reset with index := 0xFF1 } : State).index.toNat + (15 - 1) ≤ 4095 := by
  unfold SpriteCovers; decide
theorem test_witness_DrawTwiceRestoresFrameBuffer :
    (0 : Reg) ≠ 15 ∧ (1 : Reg) ≠ 15 ∧ corner.index.toNat + (1 - 1) ≤ 4095 ∧ SpriteCovers corner 0 1 1 63 31 ∧
      corner.pixel 63 31 = false := by
  unfold SpriteCovers; decide
theorem test_witness_KeySkipResults : ((regs State.reset [(0, 15)]).reg 0).toNat = (15 : Reg).val := by decide
theorem test_witness_WaitForKeyResult :
    (∀ k : Reg, State.reset.keypad[k.val] = false) ∧
      ((State.reset.keypad.set 7 true).set 12 true)[(7 : Reg).val] = true ∧
      ∀ j : Reg, j.val < (7 : Reg).val → ((State.reset.keypad.set 7 true).set 12 true)[j.val] = false := by decide
theorem test_witness_TickPhaseResult :
    ({ State.reset with tickCount := 8 } : State).stepsPerTick ≤ ({ State.reset with tickCount := 8 } : State).tickCount + 1 ∧
      ({ State.reset with tickCount := 7 } : State).tickCount + 1 < ({ State.reset with tickCount := 7 } : State).stepsPerTick := by
  decide
theorem test_witness_TickCadence : State.reset.tickCount = 0 ∧ 1 ≤ State.reset.stepsPerTick ∧ 8 < State.reset.stepsPerTick := by
  decide
theorem test_witness_TickFollowsTheInstruction :
    ({ ready 0xF015 with tickCount := 8 } : State).Running ∧
      decode (wordOfBytes ((ready 0xF015).byte 0x200) ((ready 0xF015).byte 0x201)) = .ok (.ldDtVx 0) ∧
      decode (wordOfBytes ((ready 0xF107).byte 0x200) ((ready 0xF107).byte 0x201)) = .ok (.ldVxDt 1) ∧
      ({ ready 0xF015 with tickCount := 8 } : State).stepsPerTick ≤ ({ ready 0xF015 with tickCount := 8 } : State).tickCount + 1 :=
  ⟨⟨rfl, rfl, by decide⟩, by decide, by decide, by decide⟩
theorem test_witness_CompletedStepKeepsTickCountBelow :
    (ready 0x6000).Running ∧ ∃ t, step (ready 0x6000) = .next t ∧ t.fault = none :=
  ⟨⟨rfl, rfl, by decide⟩, next_of_after (by decide)⟩
theorem test_witness_PowerOnResetState : ({ halted with host := [.powerOnReset] } : State).host = .powerOnReset :: [] := by decide
theorem test_witness_WarmResetState : ({ halted with host := [.warmReset] } : State).host = .warmReset :: [] := by decide
theorem test_witness_ProgramLoadResult :
    (List.replicate 3584 (0 : Byte)).length ≤ 3584 ∧ 3584 < (List.replicate 3585 (0 : Byte)).length ∧
      ([0x12] : List Byte).length < 2 ∧ 3584 ≤ (List.replicate 3584 (0 : Byte)).length ∧
      ({ State.reset with host := [.loadProgram 2 [0x12, 0x0A]] } : State).host = .loadProgram 2 [0x12, 0x0A] :: [] ∧
      2 ≤ ([0x12, 0x0A] : List Byte).length ∧
      ({ State.reset with host := [.loadProgram 2 [0x12]] } : State).host = .loadProgram 2 [0x12] :: [] :=
  ⟨by rw [List.length_replicate], by rw [List.length_replicate]; decide, by decide, by rw [List.length_replicate], rfl, by decide, rfl⟩
theorem test_witness_HostWriteResults :
    ({ State.reset with host := [.setKey 15 true] } : State).host = .setKey 15 true :: [] ∧
      ({ State.reset with host := [.clearDrawFlag] } : State).host = .clearDrawFlag :: [] ∧
      ({ State.reset with host := [.setStepsPerTick 4] } : State).host = .setStepsPerTick 4 :: [] := by decide
theorem test_witness_RegistersKeptUnlessNamed :
    (∃ t, exec (.addReg 1 2) State.reset = .next t) ∧ ¬ writesReg (.addReg 1 2) 3 ∧
      (∃ t, exec (.ldRegs 2) State.reset = .next t) ∧ ¬ writesReg (.ldRegs 2) 3 :=
  ⟨⟨_, rfl⟩, by unfold writesReg; decide, ⟨_, rfl⟩, by unfold writesReg; decide⟩
theorem test_witness_ElementsKeptUnlessNamed :
    (∃ t, exec (.jp 0x300) State.reset = .next t) ∧ (Instr.jp 0x300 ≠ .cls ∧ ∀ x y n, Instr.jp 0x300 ≠ .drw x y n) ∧
      ((∀ x, Instr.jp 0x300 ≠ .ldB x) ∧ ∀ x, Instr.jp 0x300 ≠ .stRegs x) ∧ (∀ nnn, Instr.jp 0x300 ≠ .call nnn) ∧
      Instr.jp 0x300 ≠ .ret ∧ (∀ nnn, Instr.jp 0x300 ≠ .ldI nnn) ∧
      (∀ x, Instr.jp 0x300 ≠ .addI x ∧ Instr.jp 0x300 ≠ .ldF x ∧ Instr.jp 0x300 ≠ .stRegs x ∧ Instr.jp 0x300 ≠ .ldRegs x) ∧
      (∀ x, Instr.jp 0x300 ≠ .ldDtVx x) ∧ (∀ x, Instr.jp 0x300 ≠ .ldStVx x) ∧ ∀ x nn, Instr.jp 0x300 ≠ .rnd x nn :=
  ⟨⟨_, rfl⟩, by simp⟩
theorem test_witness_DrawFlagClearedByHostOnly :
    State.reset.drawFlag = true ∧ ∃ t, step { State.reset with host := [.clearDrawFlag] } = .next t ∧ t.drawFlag = false :=
  ⟨rfl, next_of_after (by decide)⟩
theorem test_witness_CoreStepKeepsHostsElements :
    (ready 0x6000).host = [] ∧ (∃ t, step (ready 0x6000) = .next t ∧ t.fault = none) ∧ fetch (ready 0x6000) = some 0x6000 ∧
      decode 0x6000 ≠ .ok (.ldB 0) ∧ decode 0x6000 ≠ .ok (.stRegs 0) :=
  ⟨rfl, next_of_after (by decide), by decide, by decide, by decide⟩
theorem test_witness_OpcodeLatchIsNeverRead :
    (ready 0x2300).Running ∧ ∃ t, step (ready 0x2300) = .next t ∧ t.fault = none :=
  ⟨⟨rfl, rfl, by decide⟩, next_of_after (by decide)⟩
theorem test_witness_SelfJumpSpins :
    (ready 0x1200).Running ∧ (ready 0x1200).pc.toNat ≤ 4094 ∧
      decode (wordOfBytes ((ready 0x1200).byte 0x200) ((ready 0x1200).byte 0x201)) = .ok (.jp (ready 0x1200).pc) :=
  ⟨⟨rfl, rfl, by decide⟩, by decide, by decide⟩
theorem test_witness_StepKeepsInvariant :
    (ready 0x2FFF).Inv ∧ ∃ t, step (ready 0x2FFF) = .next t ∧ t.stack[0] = 0x202 :=
  ⟨⟨by decide, by decide, fun _ h => absurd h (Nat.not_lt_zero _)⟩, next_of_after (by decide)⟩

theorem test_witness_RequestedStepIsAStepOfTheCore :
    ({ ready 0x6A2F with host := [.requestStep 4, .warmReset] } : State).host = .requestStep 4 :: [.warmReset] ∧
      ∃ t, step { ready 0x6A2F with host := [.requestStep 4, .warmReset] } = .next t ∧ t.reg 10 = 0x2F :=
  ⟨rfl, next_of_after (by decide)⟩

/-- What `f` sees after a schedule. -/
def afterSchedule {α : Type} (f : State → α) (ops : List HostOp) (s : State) : Option α :=
  match runSchedule ops s with
  | .next t => some (f t)
  | .fault _ => none
  | .refused _ => none

/-- P7: no key at the first step, the host then presses two, the second step takes the lower one. -/
theorem test_witness_EveryScheduleTakesPlace :
    (ready 0xF30A).host = [] ∧
      afterSchedule (fun t => (t.pc, t.reg 3)) [.requestStep 9] (ready 0xF30A) = some (0x200, 0) ∧
      afterSchedule (fun t => (t.pc, t.reg 3)) [.requestStep 9, .setKey 7 true, .setKey 12 true, .requestStep 9] (ready 0xF30A) =
        some (0x202, 7) := by decide

end Sys2Proof.Tests
end

section
/-! PROOFS. The core never looks at the host's queue: whatever is pending, each phase of a step does the same and hands the queue
on. So the queue can be put back after a step instead of before it, which is what the statements about schedules turn on. -/

namespace Sys2Proof.Machine

/-! ### The shared operations hand the queue on -/

theorem fetch_withHost (s : State) (rest : List HostOp) : fetch { s with host := rest } = fetch s := rfl

theorem keyAt_reg_withHost (s : State) (x : Reg) (rest : List HostOp) :
    State.keyAt { s with host := rest } (State.reg { s with host := rest } x) = s.keyAt (s.reg x) := rfl

theorem lowestKey_withHost (s : State) (rest : List HostOp) :
    State.lowestKey { s with host := rest } = s.lowestKey := rfl

theorem skipIf_withHost (s : State) (taken : Bool) (rest : List HostOp) :
    State.skipIf { s with host := rest } taken = { s.skipIf taken with host := rest } := by
  cases taken <;> rfl

theorem guardRange_withHost (c : FaultCause) (n : Nat) {s done done' : State} {rest : List HostOp}
    (hd : done' = { done with host := rest }) :
    guardRange c n { s with host := rest } done' = withPending rest (guardRange c n s done) := by
  subst hd
  obtain ⟨hin, hs⟩ | ⟨hout, hs⟩ := guardRange_cases c n s done
  · rw [hs, guardRange_inside (s := { s with host := rest }) hin, withPending]
  · rw [hs, guardRange_outside (s := { s with host := rest }) hout, raise_eq, raise_eq, withPending]

theorem tick_withHost (s : State) (rest : List HostOp) : tick { s with host := rest } = { tick s with host := rest } := by
  by_cases h : s.stepsPerTick ≤ s.tickCount + 1
  · rw [tick_fires h, tick_fires (s := { s with host := rest }) h]
  · have hc : s.tickCount + 1 < s.stepsPerTick := by omega
    rw [tick_counts hc, tick_counts (s := { s with host := rest }) hc]

theorem finishStep_withHost (op : Word) (s : State) (rest : List HostOp) :
    finishStep op { s with host := rest } = { finishStep op s with host := rest } :=
  tick_withHost { s with opcode := op } rest

theorem endInstruction_withPending (op : Word) (rest : List HostOp) (r : Result) :
    endInstruction op (withPending rest r) = withPending rest (endInstruction op r) := by
  cases r with
  | next t =>
    cases hf : t.fault with
    | none =>
      rw [endInstruction_completes hf, withPending, withPending, endInstruction_completes (t := { t with host := rest }) hf,
        finishStep_withHost]
    | some c => rw [endInstruction_faults hf, withPending, endInstruction_faults (t := { t with host := rest }) hf]
  | fault r => rfl
  | refused r => rfl

/-! ### The instructions hand the queue on -/

theorem execRet_withHost (s : State) (rest : List HostOp) :
    execRet { s with host := rest } = withPending rest (execRet s) := by
  by_cases h : s.sp.val = 0
  · simp only [execRet, pop_empty (s := s.advance) h, pop_empty (s := State.advance { s with host := rest }) h]; rfl
  · have hp : 0 < s.sp.val := by omega
    simp only [execRet, pop_some (s := s.advance) hp, pop_some (s := State.advance { s with host := rest }) hp]; rfl

theorem execCall_withHost (nnn : Word) (s : State) (rest : List HostOp) :
    execCall nnn { s with host := rest } = withPending rest (execCall nnn s) := by
  have := s.sp.isLt
  by_cases h : s.sp.val = 16
  · simp only [execCall, push_full (s := s.advance) h, push_full (s := State.advance { s with host := rest }) h]; rfl
  · have hp : s.sp.val < 16 := by omega
    simp only [execCall, push_free (s := s.advance) hp, push_free (s := State.advance { s with host := rest }) hp]; rfl

theorem execSkp_withHost (x : Reg) (s : State) (rest : List HostOp) :
    execSkp x { s with host := rest } = withPending rest (execSkp x s) := by
  rw [execSkp, keyAt_reg_withHost, execSkp]
  cases s.keyAt (s.reg x) with
  | none => rfl
  | some pressed => exact congrArg _ (skipIf_withHost s.advance pressed rest)

theorem execSknp_withHost (x : Reg) (s : State) (rest : List HostOp) :
    execSknp x { s with host := rest } = withPending rest (execSknp x s) := by
  rw [execSknp, keyAt_reg_withHost, execSknp]
  cases s.keyAt (s.reg x) with
  | none => rfl
  | some pressed => exact congrArg _ (skipIf_withHost s.advance (!pressed) rest)

theorem execLdVxK_withHost (x : Reg) (s : State) (rest : List HostOp) :
    execLdVxK x { s with host := rest } = withPending rest (execLdVxK x s) := by
  rw [execLdVxK, lowestKey_withHost, execLdVxK]
  cases s.lowestKey <;> rfl

/-- No instruction reads or writes the queue (R162: the host acts between steps only). -/
theorem exec_withHost (i : Instr) (s : State) (rest : List HostOp) :
    exec i { s with host := rest } = withPending rest (exec i s) := by
  cases i with
  | ret => exact execRet_withHost s rest
  | call nnn => exact execCall_withHost nnn s rest
  | seImm x nn => exact congrArg _ (skipIf_withHost s.advance (s.reg x == nn) rest)
  | sneImm x nn => exact congrArg _ (skipIf_withHost s.advance (s.reg x != nn) rest)
  | seReg x y => exact congrArg _ (skipIf_withHost s.advance (s.reg x == s.reg y) rest)
  | sneReg x y => exact congrArg _ (skipIf_withHost s.advance (s.reg x != s.reg y) rest)
  | skp x => exact execSkp_withHost x s rest
  | sknp x => exact execSknp_withHost x s rest
  | ldVxK x => exact execLdVxK_withHost x s rest
  | drw _ _ _ | ldB _ | stRegs _ | ldRegs _ => exact guardRange_withHost _ _ rfl
  | cls | jp _ | jpV0 _ | ldImm _ _ | addImm _ _ | ldReg _ _ | or _ _ | and _ _ | xor _ _ | addReg _ _ | sub _ _
  | shr _ _ | subn _ _ | shl _ _ | rnd _ _ | ldI _ | addI _ | ldF _ | ldVxDt _ | ldDtVx _ | ldStVx _ => rfl

/-! ### Steps of the core and operations of the host hand the queue on -/

theorem runStep_withHost (s : State) (rest : List HostOp) :
    runStep { s with host := rest } = withPending rest (runStep s) := by
  unfold runStep
  rw [fetch_withHost]
  cases fetch s with
  | none => rfl
  | some op =>
    cases hd : decode op with
    | ok i => simp only [hd, exec_withHost, endInstruction_withPending]
    | error r =>
      simp only [hd]
      exact congrArg _ (finishStep_withHost op (unknownOpcode op s) rest)

/-- R87, R158: the halted check and the refusal do not look at the queue either. -/
theorem coreStep_withHost (s : State) (rest : List HostOp) :
    coreStep { s with host := rest } = withPending rest (coreStep s) := by
  unfold coreStep
  by_cases hf : s.fault.isSome
  · rw [if_pos hf, if_pos hf]; rfl
  · by_cases hz : s.stepsPerTick = 0
    · rw [if_neg hf, if_pos hz, if_neg hf, if_pos hz]; rfl
    · rw [if_neg hf, if_neg hz, if_neg hf, if_neg hz, runStep_withHost]

theorem hostOp_withHost (o : HostOp) (s : State) (rest : List HostOp) :
    hostOp o { s with host := rest } = { hostOp o s with host := rest } := by
  cases o with
  | loadProgram reported bytes =>
    change State.loadProgram { s with host := rest } reported bytes = { s.loadProgram reported bytes with host := rest }
    unfold State.loadProgram
    cases loadVerdict reported bytes <;> rfl
  | powerOnReset | warmReset | setKey _ _ | clearDrawFlag | requestStep _ | setStepsPerTick _ => rfl

/-- R162: what a host operation does, a step request among them, does not depend on what is pending behind it. -/
theorem performHostOp_withHost (o : HostOp) (s : State) (rest : List HostOp) :
    performHostOp o { s with host := rest } = withPending rest (performHostOp o s) := by
  unfold performHostOp
  rw [hostOp_withHost, coreStep_withHost]
  cases asksForStep o <;> rfl

/-! ### Schedules -/

/-- The step from a queue `o :: rest` performs `o` and leaves `rest` pending. -/
theorem step_cons (o : HostOp) (rest : List HostOp) (s : State) :
    step { s with host := o :: rest } = withPending rest (performHostOp o s) := by
  rw [step_perform (s := { s with host := o :: rest }) rfl, ← performHostOp_withHost]

/-- Steps from a queue that begins with `ops` perform the schedule `ops`, whatever was pending in `s` before. -/
theorem runSteps_schedule (ops rest : List HostOp) (s : State) :
    runSteps ops.length { s with host := ops ++ rest } = withPending rest (runSchedule ops s) := by
  induction ops generalizing s with
  | nil => rfl
  | cons o os ih =>
    rw [List.length_cons, List.cons_append, runSteps, runSchedule, step_cons]
    cases performHostOp o s with
    | next t => exact ih t
    | fault r => rfl
    | refused r => rfl

/-- Settles O57: the requested step is `coreStep` with the rest of the queue pending, and `coreStep` hands the queue on. -/
theorem requestedStepIsAStepOfTheCore : Obligations.RequestedStepIsAStepOfTheCore := by
  unfold Obligations.RequestedStepIsAStepOfTheCore
  intro s n rest h
  rw [step_requestStep h, step_noHostOp (s := { s with host := [], stepsPerTick := n }) rfl, ← coreStep_withHost]

/-- Settles O58, by induction on the schedule. -/
theorem everyScheduleTakesPlace : Obligations.EveryScheduleTakesPlace := by
  unfold Obligations.EveryScheduleTakesPlace
  intro ops rest s _
  exact runSteps_schedule ops rest s

end Sys2Proof.Machine
end

section
/-! PROOFS. What an instruction can do to the state, said once for all 34 (`exec_cases`), and what a step of the core keeps when
its phases keep it (`coreStep_preserves`). The statements about the elements of the state and about the invariant follow. -/

namespace Sys2Proof.Machine

/-! ### What an instruction can do -/

/-- The states that a completed instruction can leave, by the named updates it makes of `s`; the values it computes are left
open. Where the statements below need them, the side conditions under which it completes are kept. -/
def Completes (i : Instr) (s t : State) : Prop :=
  match i with
  | .jp nnn => t = s.advance.jump nnn
  | .jpV0 nnn => t = s.advance.jump (nnn + (s.reg 0).setWidth 16)
  | .ret => ∃ h : 0 < s.sp.val, t = { s with pc := s.stack[s.sp.val - 1]'(by omega), sp := ⟨s.sp.val - 1, by omega⟩ }
  | .call nnn => ∃ h : s.sp.val < 16,
      t = { s with pc := nnn, stack := s.stack.set s.sp.val (s.pc + 2) h, sp := ⟨s.sp.val + 1, by omega⟩ }
  | .seImm _ _ | .sneImm _ _ | .seReg _ _ | .sneReg _ _ | .skp _ | .sknp _ => ∃ taken, t = s.advance.skipIf taken
  | .ldImm x _ | .addImm x _ | .ldReg x _ | .or x _ | .and x _ | .xor x _ | .ldVxDt x => ∃ val, t = s.advance.setReg x val
  | .rnd x _ => ∃ val, t = s.drawRandom.2.advance.setReg x val
  | .ldVxK x => t = s ∨ ∃ val, t = s.advance.setReg x val
  | .addReg x _ | .sub x _ | .shr x _ | .subn x _ | .shl x _ => ∃ val flag, t = s.advance.setRegAndFlag x val flag
  | .cls => ∃ video, t = s.advance.setVideo video
  | .drw _ _ _ => ∃ video val, t = (s.advance.setVideo video).setReg 15 val
  | .ldI _ | .addI _ | .ldF _ => ∃ addr, t = s.advance.setIndex addr
  | .ldDtVx _ => ∃ val, t = s.advance.setDelay val
  | .ldStVx _ => ∃ val, t = s.advance.setSound val
  | .ldB _ => ∃ bytes, s.index.toNat + bytes.length ≤ 4096 ∧ t = s.advance.storeBytes s.index.toNat bytes
  | .stRegs _ => ∃ bytes addr, s.index.toNat + bytes.length ≤ 4096 ∧
      t = (s.advance.storeBytes s.index.toNat bytes).setIndex addr
  | .ldRegs x => ∃ addr, t = (s.advance.loadRegs x s.index.toNat).setIndex addr

theorem next_unique {r : Result} {t u : State} (ht : r = .next t) (hu : r = .next u) : t = u :=
  Host.Outcome.next.inj (ht.symm.trans hu)

theorem rangeInMemory_end_le {b n : Nat} (h : RangeInMemory b n) (hn : 0 < n) : b + n ≤ 4096 := by
  obtain h | h := h <;> omega

/-- R45, R152: a range-checked transfer that answers a next state did all of it, or took a fault. -/
theorem guardRange_next {c : FaultCause} {n : Nat} {s done t : State} (h : guardRange c n s done = .next t) :
    (∃ r, t = { s with fault := some r }) ∨ (RangeInMemory s.index.toNat n ∧ t = done) := by
  obtain ⟨hin, hg⟩ | ⟨-, hg⟩ := guardRange_cases c n s done
  · exact .inr ⟨hin, next_unique h hg⟩
  · exact .inl ⟨_, next_unique h hg⟩

/-- R140: everything a skip on a pressed key can do. -/
theorem execSkp_cases (x : Reg) (s : State) :
    (s.keyAt (s.reg x) = none ∧ execSkp x s = raise .keyIndexOutOfRange ((s.reg x).setWidth 16) s) ∨
      ∃ pressed, s.keyAt (s.reg x) = some pressed ∧ execSkp x s = .next (s.advance.skipIf pressed) := by
  unfold execSkp
  cases s.keyAt (s.reg x) with
  | none => exact .inl ⟨rfl, rfl⟩
  | some pressed => exact .inr ⟨pressed, rfl, rfl⟩

/-- R141: everything a skip on a key that is not pressed can do. -/
theorem execSknp_cases (x : Reg) (s : State) :
    (s.keyAt (s.reg x) = none ∧ execSknp x s = raise .keyIndexOutOfRange ((s.reg x).setWidth 16) s) ∨
      ∃ pressed, s.keyAt (s.reg x) = some pressed ∧ execSknp x s = .next (s.advance.skipIf !pressed) := by
  unfold execSknp
  cases s.keyAt (s.reg x) with
  | none => exact .inl ⟨rfl, rfl⟩
  | some pressed => exact .inr ⟨pressed, rfl, rfl⟩

/-- R152: an instruction that answers a next state took a fault, which changes the latch alone, or completed. -/
theorem exec_cases {i : Instr} {s t : State} (h : exec i s = .next t) :
    (∃ r, t = { s with fault := some r }) ∨ Completes i s t := by
  cases i with
  | jp _ | jpV0 _ => exact .inr (Host.Outcome.next.inj h).symm
  | cls | seImm _ _ | sneImm _ _ | seReg _ _ | sneReg _ _ | ldImm _ _ | addImm _ _ | ldReg _ _ | or _ _ | and _ _ | xor _ _
  | ldVxDt _ | rnd _ _ | ldI _ | addI _ | ldF _ | ldDtVx _ | ldStVx _ => exact .inr ⟨_, (Host.Outcome.next.inj h).symm⟩
  | addReg _ _ | sub _ _ | shr _ _ | subn _ _ | shl _ _ => exact .inr ⟨_, _, (Host.Outcome.next.inj h).symm⟩
  | ret =>
    obtain ⟨-, he⟩ | ⟨hsp, he⟩ := execRet_cases s
    · exact .inl ⟨_, next_unique h he⟩
    · exact .inr ⟨hsp, next_unique h he⟩
  | call nnn =>
    obtain ⟨-, he⟩ | ⟨hsp, he⟩ := execCall_cases nnn s
    · exact .inl ⟨_, next_unique h he⟩
    · exact .inr ⟨hsp, next_unique h he⟩
  | skp x =>
    obtain ⟨-, he⟩ | ⟨_, -, he⟩ := execSkp_cases x s
    · exact .inl ⟨_, next_unique h he⟩
    · exact .inr ⟨_, next_unique h he⟩
  | sknp x =>
    obtain ⟨-, he⟩ | ⟨_, -, he⟩ := execSknp_cases x s
    · exact .inl ⟨_, next_unique h he⟩
    · exact .inr ⟨_, next_unique h he⟩
  | ldVxK x =>
    obtain ⟨-, he⟩ | ⟨k, -, he⟩ := execLdVxK_cases x s
    · exact .inr (.inl (next_unique h he))
    · exact .inr (.inr ⟨_, next_unique h he⟩)
  | drw _ _ _ => exact (guardRange_next h).imp_right fun ⟨_, ht⟩ => ⟨_, _, ht⟩
  | ldRegs _ => exact (guardRange_next h).imp_right fun ⟨_, ht⟩ => ⟨_, ht⟩
  | ldB _ => exact (guardRange_next h).imp_right fun ⟨hin, ht⟩ =>
      ⟨decimalDigits _, rangeInMemory_end_le hin (Nat.succ_pos 2), ht⟩
  | stRegs x =>
    refine (guardRange_next h).imp_right fun ⟨hin, ht⟩ => ⟨_, _, ?_, ht⟩
    rw [length_regsUpTo]
    exact rangeInMemory_end_le hin (Nat.succ_pos _)

/-! ### What an instruction leaves alone -/

theorem reg_setReg_other {s : State} {x k : Reg} {val : Byte} (hk : k ≠ x) : (s.setReg x val).reg k = s.reg k := by
  rw [reg_setReg, if_neg hk]

/-- R20, R21: an instruction that writes register `k` names it. -/
theorem exec_reg {i : Instr} {s t : State} {k : Reg} (h : exec i s = .next t) (hk : ¬ writesReg i k) :
    t.reg k = s.reg k := by
  obtain ⟨r, rfl⟩ | hc := exec_cases h
  · rfl
  cases i with
  | jp _ | jpV0 _ => subst hc; rfl
  | ret | call _ => obtain ⟨_, rfl⟩ := hc; rfl
  | cls | ldI _ | addI _ | ldF _ | ldDtVx _ | ldStVx _ => obtain ⟨_, rfl⟩ := hc; rfl
  | seImm _ _ | sneImm _ _ | seReg _ _ | sneReg _ _ | skp _ | sknp _ =>
    obtain ⟨_, rfl⟩ := hc; exact reg_eq_of_v_eq (by simp) k
  | ldB _ => obtain ⟨_, -, rfl⟩ := hc; rfl
  | stRegs _ => obtain ⟨_, _, -, rfl⟩ := hc; rfl
  | ldImm _ _ | addImm _ _ | ldReg _ _ | or _ _ | and _ _ | xor _ _ | ldVxDt _ | rnd _ _ =>
    obtain ⟨_, rfl⟩ := hc; exact reg_setReg_other hk
  | ldVxK _ =>
    obtain rfl | ⟨_, rfl⟩ := hc
    · rfl
    · exact reg_setReg_other hk
  | addReg _ _ | sub _ _ | shr _ _ | subn _ _ | shl _ _ =>
    obtain ⟨_, _, rfl⟩ := hc
    obtain ⟨hx, hflag⟩ := not_or.mp hk
    rw [reg_setRegAndFlag, if_neg hflag, if_neg hx]; rfl
  | drw _ _ _ => obtain ⟨_, _, rfl⟩ := hc; exact reg_setReg_other hk
  | ldRegs x =>
    obtain ⟨addr, rfl⟩ := hc
    exact (reg_loadRegs s.advance x k s.index.toNat).trans (if_neg hk)

/-- What `i` leaves alone between `s` and `t`: each element, unless `i` is on its list of writers (10_state.md R23 to R32 and R35,
20_memory.md R47). -/
structure ExecKeeps (i : Instr) (s t : State) : Prop where
  keypad : t.keypad = s.keypad
  opcode : t.opcode = s.opcode
  tickCount : t.tickCount = s.tickCount
  stepsPerTick : t.stepsPerTick = s.stepsPerTick
  events : t.events = s.events
  host : t.host = s.host
  display : i ≠ .cls → (∀ x y n, i ≠ .drw x y n) → t.video = s.video ∧ t.drawFlag = s.drawFlag
  mem : (∀ x, i ≠ .ldB x) → (∀ x, i ≠ .stRegs x) → t.mem = s.mem
  stack : (∀ nnn, i ≠ .call nnn) → t.stack = s.stack ∧ (i ≠ .ret → t.sp = s.sp)
  index : (∀ nnn, i ≠ .ldI nnn) → (∀ x, i ≠ .addI x ∧ i ≠ .ldF x ∧ i ≠ .stRegs x ∧ i ≠ .ldRegs x) →
    t.index = s.index
  dt : (∀ x, i ≠ .ldDtVx x) → t.dt = s.dt
  st : (∀ x, i ≠ .ldStVx x) → t.st = s.st
  rndIndex : (∀ x nn, i ≠ .rnd x nn) → t.rndIndex = s.rndIndex

theorem exec_keeps {i : Instr} {s t : State} (h : exec i s = .next t) : ExecKeeps i s t := by
  obtain ⟨r, rfl⟩ | hc := exec_cases h
  · constructor <;> simp
  cases i with
  | jp _ | jpV0 _ => subst hc; constructor <;> simp
  | ret | call _ | cls | seImm _ _ | sneImm _ _ | seReg _ _ | sneReg _ _ | skp _ | sknp _ | ldImm _ _ | addImm _ _ | ldReg _ _
  | or _ _ | and _ _ | xor _ _ | ldVxDt _ | rnd _ _ | ldI _ | addI _ | ldF _ | ldDtVx _ | ldStVx _ | ldRegs _ =>
    obtain ⟨_, rfl⟩ := hc; constructor <;> simp
  | addReg _ _ | sub _ _ | shr _ _ | subn _ _ | shl _ _ | drw _ _ _ => obtain ⟨_, _, rfl⟩ := hc; constructor <;> simp
  | ldVxK _ => obtain rfl | ⟨_, rfl⟩ := hc <;> constructor <;> simp
  | ldB _ => obtain ⟨_, -, rfl⟩ := hc; constructor <;> simp
  | stRegs _ => obtain ⟨_, _, -, rfl⟩ := hc; constructor <;> simp

/-- R30: an instruction leaves the draw flag or, as `CLS` and `DRW` do, sets it. -/
theorem exec_drawFlag {i : Instr} {s t : State} (h : exec i s = .next t) (hs : s.drawFlag = true) : t.drawFlag = true := by
  obtain ⟨r, rfl⟩ | hc := exec_cases h
  · exact hs
  by_cases hcls : i = .cls
  · subst hcls; obtain ⟨_, rfl⟩ := hc; rfl
  by_cases hdrw : ∃ x y n, i = .drw x y n
  · obtain ⟨x, y, n, rfl⟩ := hdrw; obtain ⟨_, _, rfl⟩ := hc; rfl
  · obtain ⟨-, hflag⟩ := (exec_keeps h).display hcls fun x y n hi => hdrw ⟨x, y, n, hi⟩
    rw [hflag, hs]

/-- Settles O49, by `exec_reg`: the written register of each kind of update is one that `writesReg` names. -/
theorem registersKeptUnlessNamed : Obligations.RegistersKeptUnlessNamed := by
  unfold Obligations.RegistersKeptUnlessNamed
  intro i s t k h hk
  exact exec_reg h hk

/-- Settles O50, by `exec_keeps`; equal memories have equal bytes. -/
theorem elementsKeptUnlessNamed : Obligations.ElementsKeptUnlessNamed := by
  unfold Obligations.ElementsKeptUnlessNamed
  intro i s t h
  have hk := exec_keeps h
  refine ⟨⟨hk.keypad, hk.opcode, hk.tickCount, hk.stepsPerTick, hk.events, hk.host⟩, hk.display, ?_, hk.stack, hk.index,
    hk.dt, hk.st, hk.rndIndex⟩
  intro hB hSt a
  rw [State.byte_eq, hk.mem hB hSt, State.byte_eq]

/-! ### What a step of the core keeps -/

/-- A step of the core that answers a next state keeps what each of its phases keeps: a fault taken (R152), the instruction, an
unrecognised word (R85), the end of a completing step (R80). -/
theorem coreStep_preserves {P : State → Prop} {s t : State} (h : coreStep s = .next t) (hs : P s)
    (hfault : ∀ r, P { s with fault := some r })
    (hexec : s.pc.toNat ≤ 4094 → ∀ op i u, fetch s = some op → decode op = .ok i → exec i s = .next u → P u)
    (hunknown : s.pc.toNat ≤ 4094 → ∀ op, P (unknownOpcode op s))
    (hfinish : ∀ op u, P u → P (finishStep op u)) : P t := by
  obtain ⟨-, rfl⟩ | ⟨-, -, -, rfl⟩ | ⟨-, -, hp, op, i, u, hf, hd, he, rfl⟩ | ⟨-, -, hp, op, r, -, -, rfl⟩ :=
    coreStep_cases h
  · exact hs
  · exact hfault _
  · split
    · exact hexec hp op i u hf hd he
    · exact hfinish op u (hexec hp op i u hf hd he)
  · exact hfinish op _ (hunknown hp op)

theorem finishStep_tickCount_lt {op : Word} {s : State} (h : 1 ≤ s.stepsPerTick) :
    (finishStep op s).tickCount < (finishStep op s).stepsPerTick := by
  rw [finishStep_stepsPerTick]
  exact tick_tickCount_lt (s := { s with opcode := op }) h

/-- Settles O44: a running core whose latch is clear after the step has run its tick phase. -/
theorem completedStepKeepsTickCountBelow : Obligations.CompletedStepKeepsTickCountBelow := by
  unfold Obligations.CompletedStepKeepsTickCountBelow
  rintro s t ⟨hhost, hclear, hn⟩ h ht
  rw [step_noHostOp hhost] at h
  obtain ⟨hf, -⟩ | ⟨-, -, -, rfl⟩ | ⟨-, -, -, op, i, u, -, -, he, rfl⟩ | ⟨-, -, -, op, r, -, -, rfl⟩ := coreStep_cases h
  · exact absurd hclear hf
  · cases ht
  · split at ht
    · next hu => rw [ht] at hu; cases hu
    · next hu => rw [if_neg hu]; exact finishStep_tickCount_lt (by rw [(exec_keeps he).stepsPerTick]; exact hn)
  · exact finishStep_tickCount_lt hn

/-- R30: no step of the core clears the draw flag. -/
theorem coreStep_drawFlag {s t : State} (h : coreStep s = .next t) (hs : s.drawFlag = true) : t.drawFlag = true :=
  coreStep_preserves (P := fun u => u.drawFlag = true) h hs (fun _ => hs) (fun _ _ _ _ _ _ he => exec_drawFlag he hs)
    (fun _ _ => hs) (fun op u hu => by rw [finishStep_drawFlag, hu])

/-- R161, R162: of the host's operations only the clear clears the draw flag. -/
theorem hostOp_drawFlag {o : HostOp} {s : State} (hs : s.drawFlag = true) (ho : o ≠ .clearDrawFlag) :
    (hostOp o s).drawFlag = true := by
  cases o with
  | powerOnReset | warmReset => rfl
  | loadProgram reported bytes =>
    change (s.loadProgram reported bytes).drawFlag = true
    unfold State.loadProgram
    split <;> exact hs
  | setKey _ _ | requestStep _ | setStepsPerTick _ => exact hs
  | clearDrawFlag => exact absurd rfl ho

/-- Settles O51: of the host's operations only the clear, and no step of the core, can clear the flag. -/
theorem drawFlagClearedByHostOnly : Obligations.DrawFlagClearedByHostOnly := by
  unfold Obligations.DrawFlagClearedByHostOnly
  intro s t h hs ht
  obtain ⟨o, rest, hhost, -, rfl⟩ | ⟨n, rest, -, hcore⟩ | ⟨-, hcore⟩ := step_cases h
  · by_contra hne
    have ho : o ≠ .clearDrawFlag := fun ho => hne (by rw [hhost, ho]; rfl)
    rw [hostOp_drawFlag (s := { s with host := rest }) hs ho] at ht
    cases ht
  · rw [coreStep_drawFlag hcore hs] at ht; cases ht
  · rw [coreStep_drawFlag hcore hs] at ht; cases ht

/-- R28, R162: a step of the core leaves what the host writes. -/
theorem coreStep_keepsInputs {s t : State} (h : coreStep s = .next t) :
    t.keypad = s.keypad ∧ t.stepsPerTick = s.stepsPerTick ∧ t.host = s.host :=
  coreStep_preserves (P := fun u => u.keypad = s.keypad ∧ u.stepsPerTick = s.stepsPerTick ∧ u.host = s.host) h
    ⟨rfl, rfl, rfl⟩ (fun _ => ⟨rfl, rfl, rfl⟩)
    (fun _ _ _ _ _ _ he => ⟨(exec_keeps he).keypad, (exec_keeps he).stepsPerTick, (exec_keeps he).host⟩)
    (fun _ _ => ⟨rfl, rfl, rfl⟩) (fun op u hu => by simpa using hu)

/-- R52: a step of the core that fetches neither `Fx33` nor `Fx55` leaves memory. -/
theorem coreStep_mem {s t : State} (h : coreStep s = .next t)
    (hno : ∀ op x, fetch s = some op → decode op ≠ .ok (.ldB x) ∧ decode op ≠ .ok (.stRegs x)) : t.mem = s.mem := by
  refine coreStep_preserves (P := fun u => u.mem = s.mem) h rfl (fun _ => rfl) ?_ (fun _ _ => rfl)
    (fun op u hu => by rw [finishStep_mem, hu])
  intro _ op i u hf hd he
  exact (exec_keeps he).mem (fun x hi => (hno op x hf).1 (hi ▸ hd)) (fun x hi => (hno op x hf).2 (hi ▸ hd))

/-- Settles O52: `coreStep_preserves` for what the host writes and for memory. -/
theorem coreStepKeepsHostsElements : Obligations.CoreStepKeepsHostsElements := by
  unfold Obligations.CoreStepKeepsHostsElements
  intro s t hhost h
  rw [step_noHostOp hhost] at h
  obtain ⟨hkey, hn, hq⟩ := coreStep_keepsInputs h
  refine ⟨hkey, hn, hq.trans hhost, fun hno a => ?_⟩
  rw [State.byte_eq, coreStep_mem h hno, State.byte_eq]

/-! ### The invariant -/

/-- R61, R62: a decoded instruction has an encoding: a word's address field is 12 bits wide and its row count 4. -/
theorem decode_wellFormed {op : Word} {i : Instr} (h : decode op = .ok i) : i.WellFormed := by
  have haddr : AddressFits (fieldNNN op) := by have := fieldNNN_toNat op; unfold AddressFits; omega
  have hrows : RowCountFits (fieldN op) := by have := fieldN_lt op; unfold RowCountFits; omega
  unfold decode decode0 decode5 decode8 decode9 decodeE decodeF at h
  repeat' split at h
  all_goals cases h
  all_goals simp [Instr.WellFormed, Instr.wellFormed, haddr, hrows]

/-- R43, R45: an instruction keeps the canonical form, since it stores inside the memory only. -/
theorem exec_memCanonical {i : Instr} {s t : State} (hs : s.mem.wf = true) (h : exec i s = .next t) : t.mem.wf = true := by
  obtain ⟨r, rfl⟩ | hc := exec_cases h
  · exact hs
  by_cases hB : ∃ x, i = .ldB x
  · obtain ⟨x, rfl⟩ := hB
    obtain ⟨bytes, hin, rfl⟩ := hc
    exact Memory.wf_writeBytes hs hin
  by_cases hSt : ∃ x, i = .stRegs x
  · obtain ⟨x, rfl⟩ := hSt
    obtain ⟨bytes, addr, hin, rfl⟩ := hc
    exact Memory.wf_writeBytes hs hin
  · rw [(exec_keeps h).mem (fun x hi => hB ⟨x, hi⟩) fun x hi => hSt ⟨x, hi⟩]
    exact hs

/-- R22: everything a well-formed instruction can do to `pc`: stay or go forward by one or two words, go to a 12-bit address,
to one plus a byte (R97), or to the return address on top of the stack (R90). -/
theorem exec_pc_cases {i : Instr} {s t : State} (hw : i.WellFormed) (h : exec i s = .next t) :
    t.pc = s.pc ∨ t.pc = s.pc + 2 ∨ t.pc = s.pc + 2 + 2 ∨ t.pc.toNat ≤ 0xFFF + 0xFF ∨
      ∃ k : Fin 16, k.val < s.sp.val ∧ t.pc = s.stack[k.val] := by
  obtain ⟨r, rfl⟩ | hc := exec_cases h
  · exact .inl rfl
  cases i with
  | jp nnn =>
    have hn : nnn.toNat ≤ 0xFFF := of_decide_eq_true hw
    subst hc; rw [State.jump_pc]; omega
  | call nnn =>
    have hn : nnn.toNat ≤ 0xFFF := of_decide_eq_true hw
    obtain ⟨hsp, rfl⟩ := hc
    exact .inr (.inr (.inr (.inl (by show nnn.toNat ≤ _; omega))))
  | jpV0 nnn =>
    have hn : nnn.toNat ≤ 0xFFF := of_decide_eq_true hw
    have := (s.reg 0).isLt
    subst hc
    refine .inr (.inr (.inr (.inl ?_)))
    rw [State.jump_pc, BitVec.toNat_add, BitVec.toNat_setWidth]; omega
  | ret =>
    obtain ⟨hsp, rfl⟩ := hc
    have := s.sp.isLt
    exact .inr (.inr (.inr (.inr ⟨⟨s.sp.val - 1, by omega⟩, by show s.sp.val - 1 < _; omega, rfl⟩)))
  | seImm _ _ | sneImm _ _ | seReg _ _ | sneReg _ _ | skp _ | sknp _ =>
    obtain ⟨taken, rfl⟩ := hc
    cases taken
    · exact .inr (.inl rfl)
    · exact .inr (.inr (.inl rfl))
  | ldVxK _ =>
    obtain rfl | ⟨_, rfl⟩ := hc
    · exact .inl rfl
    · exact .inr (.inl rfl)
  | cls | ldImm _ _ | addImm _ _ | ldReg _ _ | or _ _ | and _ _ | xor _ _ | ldVxDt _ | rnd _ _ | ldI _ | addI _ | ldF _ | ldDtVx _
  | ldStVx _ | ldRegs _ => obtain ⟨_, rfl⟩ := hc; exact .inr (.inl rfl)
  | addReg _ _ | sub _ _ | shr _ _ | subn _ _ | shl _ _ | drw _ _ _ => obtain ⟨_, _, rfl⟩ := hc; exact .inr (.inl rfl)
  | ldB _ => obtain ⟨_, -, rfl⟩ := hc; exact .inr (.inl rfl)
  | stRegs _ => obtain ⟨_, _, -, rfl⟩ := hc; exact .inr (.inl rfl)

/-- R22: an instruction that was fetched leaves `pc` within the bound: 4094 + 4, 0x10FE and 4096 are all below it or at it. -/
theorem exec_pcBound {i : Instr} {s t : State} (hs : s.Inv) (hp : s.pc.toNat ≤ 4094) (hw : i.WellFormed)
    (h : exec i s = .next t) : t.pc.toNat ≤ 0x10FE := by
  obtain hpc | hpc | hpc | hpc | ⟨k, hk, hpc⟩ := exec_pc_cases hw h
  · rw [hpc]; omega
  · rw [hpc]; bv_omega
  · rw [hpc]; bv_omega
  · omega
  · have := (hs.returnAddresses k hk).2
    rw [hpc]; omega

/-- R90, R92: the stack holds return addresses only, since a call pushes the `a + 2` of an address it was fetched from. -/
theorem exec_returnAddresses {i : Instr} {s t : State} (hs : s.Inv) (hp : s.pc.toNat ≤ 4094) (h : exec i s = .next t)
    (k : Fin 16) (hk : k.val < t.sp.val) : 2 ≤ t.stack[k.val].toNat ∧ t.stack[k.val].toNat ≤ 4096 := by
  obtain ⟨r, rfl⟩ | hc := exec_cases h
  · exact hs.returnAddresses k hk
  by_cases hcall : ∃ nnn, i = .call nnn
  · obtain ⟨nnn, rfl⟩ := hcall
    obtain ⟨hsp, rfl⟩ := hc
    dsimp only at hk ⊢
    by_cases htop : k.val = s.sp.val
    · simp only [htop, Vector.getElem_set_self]; bv_omega
    · rw [Vector.getElem_set_ne _ _ (Ne.symm htop)]
      exact hs.returnAddresses k (by omega)
  obtain ⟨hstack, hspKept⟩ := (exec_keeps h).stack fun nnn hi => hcall ⟨nnn, hi⟩
  have hsp : t.sp.val ≤ s.sp.val := by
    by_cases hret : i = .ret
    · subst hret; obtain ⟨_, rfl⟩ := hc; exact Nat.sub_le ..
    · rw [hspKept hret]
  rw [hstack]
  exact hs.returnAddresses k (by omega)

theorem exec_inv {i : Instr} {s t : State} (hs : s.Inv) (hp : s.pc.toNat ≤ 4094) (hw : i.WellFormed)
    (h : exec i s = .next t) : t.Inv where
  memCanonical := exec_memCanonical hs.memCanonical h
  pcBound := exec_pcBound hs hp hw h
  returnAddresses := exec_returnAddresses hs hp h

/-- The invariant speaks of memory, `pc` and the stack only. -/
theorem State.Inv.of_eq {s t : State} (hs : s.Inv) (hmem : t.mem = s.mem) (hpc : t.pc = s.pc) (hstack : t.stack = s.stack)
    (hsp : t.sp = s.sp) : t.Inv where
  memCanonical := by rw [hmem]; exact hs.memCanonical
  pcBound := by rw [hpc]; exact hs.pcBound
  returnAddresses k hk := by rw [hstack]; exact hs.returnAddresses k (hsp ▸ hk)

theorem unknownOpcode_inv {s : State} (hs : s.Inv) (hp : s.pc.toNat ≤ 4094) (op : Word) : (unknownOpcode op s).Inv where
  memCanonical := hs.memCanonical
  pcBound := by rw [unknownOpcode_pc]; bv_omega
  returnAddresses := hs.returnAddresses

theorem coreStep_inv {s t : State} (hs : s.Inv) (h : coreStep s = .next t) : t.Inv :=
  coreStep_preserves (P := State.Inv) h hs (fun _ => hs.of_eq rfl rfl rfl rfl)
    (fun hp _ _ _ _ hd he => exec_inv hs hp (decode_wellFormed hd) he) (fun hp op => unknownOpcode_inv hs hp op)
    (fun op u hu => hu.of_eq (by simp) (by simp) (by simp) (by simp))

/-- R180, R181: a reset state with any canonical memory meets the invariant; its stack is empty. -/
theorem inv_of_reset {s : State} (hmem : s.mem.wf = true) (hpc : s.pc = 0x200) (hsp : s.sp = 0) : s.Inv where
  memCanonical := hmem
  pcBound := by rw [hpc]; decide
  returnAddresses k hk := by rw [hsp] at hk; exact absurd hk (Nat.not_lt_zero _)

/-- R183: an accepted program fits into the memory from 0x200 on. -/
theorem loadProgram_inv {s : State} (hs : s.Inv) (reported : Nat) (bytes : List Byte) : (s.loadProgram reported bytes).Inv := by
  by_cases ha : loadVerdict reported bytes = .accepted
  · have hlen : bytes.length ≤ 3584 := by
      unfold loadVerdict Config.progMax at ha
      split_ifs at ha; omega
    have hmem : (s.mem.writeBytes Config.progBase bytes).wf = true :=
      Memory.wf_writeBytes hs.memCanonical (by unfold Config.progBase Config.memSize; omega)
    rw [State.loadProgram, ha]
    exact ⟨hmem, hs.pcBound, hs.returnAddresses⟩
  · unfold State.loadProgram
    split
    · contradiction
    · exact hs
    · exact hs

theorem hostOp_inv {s : State} (hs : s.Inv) (o : HostOp) : (hostOp o s).Inv := by
  cases o with
  | powerOnReset => exact inv_of_reset Memory.wf_nil rfl rfl
  | warmReset => exact inv_of_reset hs.memCanonical rfl rfl
  | loadProgram reported bytes => exact loadProgram_inv hs reported bytes
  | setKey _ _ | clearDrawFlag | requestStep _ | setStepsPerTick _ => exact hs.of_eq rfl rfl rfl rfl

/-- Settles O55: the host's operations keep the invariant, and so does each phase of a step of the core. -/
theorem stepKeepsInvariant : Obligations.StepKeepsInvariant := by
  unfold Obligations.StepKeepsInvariant
  intro s t hs h
  obtain ⟨o, rest, -, -, rfl⟩ | ⟨n, rest, -, hcore⟩ | ⟨-, hcore⟩ := step_cases h
  · exact hostOp_inv (s := { s with host := rest }) (hs.of_eq rfl rfl rfl rfl) o
  · exact coreStep_inv (s := { s with host := rest, stepsPerTick := n }) (hs.of_eq rfl rfl rfl rfl) hcore
  · exact coreStep_inv hs hcore

/-! ### The opcode latch -/

/-- An outcome with `w` in the opcode latch. -/
def withLatch (w : Word) : Result → Result
  | .next t => .next { t with opcode := w }
  | .fault r => .fault r
  | .refused r => .refused r

theorem skipIf_withLatch (s : State) (taken : Bool) (w : Word) :
    State.skipIf { s with opcode := w } taken = { s.skipIf taken with opcode := w } := by
  cases taken <;> rfl

theorem guardRange_withLatch (c : FaultCause) (n : Nat) {s done done' : State} {w : Word}
    (hd : done' = { done with opcode := w }) :
    guardRange c n { s with opcode := w } done' = withLatch w (guardRange c n s done) := by
  subst hd
  obtain ⟨hin, hs⟩ | ⟨hout, hs⟩ := guardRange_cases c n s done
  · rw [hs, guardRange_inside (s := { s with opcode := w }) hin, withLatch]
  · rw [hs, guardRange_outside (s := { s with opcode := w }) hout, raise_eq, raise_eq, withLatch]

theorem pop_withLatch (s : State) (w : Word) :
    State.pop { s with opcode := w } = s.pop.map fun p => (p.1, { p.2 with opcode := w }) := by
  unfold State.pop
  split <;> rfl

theorem push_withLatch (s : State) (ret w : Word) :
    State.push { s with opcode := w } ret = (s.push ret).map fun t => { t with opcode := w } := by
  unfold State.push
  split <;> rfl

theorem execRet_withLatch (s : State) (w : Word) : execRet { s with opcode := w } = withLatch w (execRet s) := by
  have hpop : State.pop (State.advance { s with opcode := w }) = _ := pop_withLatch s.advance w
  rw [execRet, hpop, execRet]
  cases s.advance.pop <;> rfl

theorem execCall_withLatch (nnn : Word) (s : State) (w : Word) :
    execCall nnn { s with opcode := w } = withLatch w (execCall nnn s) := by
  have hpush : State.push (State.advance { s with opcode := w }) (s.pc + 2) = _ := push_withLatch s.advance (s.pc + 2) w
  rw [execCall, State.advance_pc, hpush, execCall, State.advance_pc]
  cases s.advance.push (s.pc + 2) <;> rfl

theorem keyAt_reg_withLatch (s : State) (x : Reg) (w : Word) :
    State.keyAt { s with opcode := w } (State.reg { s with opcode := w } x) = s.keyAt (s.reg x) := rfl

/-- R31: no instruction reads the opcode latch or writes it. -/
theorem exec_withLatch (i : Instr) (s : State) (w : Word) : exec i { s with opcode := w } = withLatch w (exec i s) := by
  cases i with
  | ret => exact execRet_withLatch s w
  | call nnn => exact execCall_withLatch nnn s w
  | seImm x nn => exact congrArg _ (skipIf_withLatch s.advance (s.reg x == nn) w)
  | sneImm x nn => exact congrArg _ (skipIf_withLatch s.advance (s.reg x != nn) w)
  | seReg x y => exact congrArg _ (skipIf_withLatch s.advance (s.reg x == s.reg y) w)
  | sneReg x y => exact congrArg _ (skipIf_withLatch s.advance (s.reg x != s.reg y) w)
  | skp x =>
    rw [exec, exec, execSkp, execSkp, keyAt_reg_withLatch]
    cases s.keyAt (s.reg x) with
    | none => rfl
    | some pressed => exact congrArg _ (skipIf_withLatch s.advance pressed w)
  | sknp x =>
    rw [exec, exec, execSknp, execSknp, keyAt_reg_withLatch]
    cases s.keyAt (s.reg x) with
    | none => rfl
    | some pressed => exact congrArg _ (skipIf_withLatch s.advance (!pressed) w)
  | ldVxK x =>
    have hkey : State.lowestKey { s with opcode := w } = s.lowestKey := rfl
    rw [exec, exec, execLdVxK, execLdVxK, hkey]
    cases s.lowestKey <;> rfl
  | drw _ _ _ | ldB _ | stRegs _ | ldRegs _ => exact guardRange_withLatch _ _ rfl
  | cls | jp _ | jpV0 _ | ldImm _ _ | addImm _ _ | ldReg _ _ | or _ _ | and _ _ | xor _ _ | addReg _ _ | sub _ _
  | shr _ _ | subn _ _ | shl _ _ | rnd _ _ | ldI _ | addI _ | ldF _ | ldVxDt _ | ldDtVx _ | ldStVx _ => rfl

/-- R31, R80: a step of the core from another latch ends alike. A step that completes writes the latch, so nothing is left of the
difference; a step that faults, and the step of a halted core, hand it on. -/
theorem coreStep_withLatch {s t : State} (w : Word) (h : coreStep s = .next t) :
    (t.fault = none ∧ coreStep { s with opcode := w } = .next t) ∨
      (t.fault ≠ none ∧ coreStep { s with opcode := w } = .next { t with opcode := w }) := by
  obtain ⟨hf, rfl⟩ | ⟨hf, hn, hp, rfl⟩ | ⟨hf, hn, hp, op, i, u, hop, hd, he, rfl⟩ | ⟨hf, hn, hp, op, r, hop, hd, rfl⟩ :=
    coreStep_cases h
  · exact .inr ⟨hf, if_pos (Option.isSome_iff_ne_none.mpr hf)⟩
  · have hfetch : fetch { s with opcode := w } = none := fetch_outside hp
    refine .inr ⟨Option.some_ne_none _, ?_⟩
    rw [coreStep_running (s := { s with opcode := w }) hf hn, runStep, hfetch]; rfl
  · have hfetch : fetch { s with opcode := w } = some op := hop
    rw [coreStep_running (s := { s with opcode := w }) hf hn, runStep, hfetch]
    simp only [hd, exec_withLatch, he, withLatch]
    by_cases hu : u.fault = none
    · rw [if_neg (by simp [hu])]
      exact .inl ⟨(finishStep_fault op u).trans hu, endInstruction_completes (t := { u with opcode := w }) hu⟩
    · obtain ⟨c, hc⟩ := Option.ne_none_iff_exists'.mp hu
      rw [if_pos (by simp [hc])]
      exact .inr ⟨hu, endInstruction_faults (t := { u with opcode := w }) hc⟩
  · have hfetch : fetch { s with opcode := w } = some op := hop
    refine .inl ⟨by rw [finishStep_fault]; exact hf, ?_⟩
    rw [coreStep_running (s := { s with opcode := w }) hf hn, runStep, hfetch]
    simp only [hd]; rfl

/-- R162: an operation of the host hands the latch on, or writes it (R180, R181). -/
theorem hostOp_withLatch (o : HostOp) (s : State) (w : Word) :
    hostOp o { s with opcode := w } = hostOp o s ∨ hostOp o { s with opcode := w } = { hostOp o s with opcode := w } := by
  cases o with
  | powerOnReset | warmReset => exact .inl rfl
  | loadProgram reported bytes =>
    right
    change State.loadProgram { s with opcode := w } reported bytes = { s.loadProgram reported bytes with opcode := w }
    unfold State.loadProgram
    cases loadVerdict reported bytes <;> rfl
  | setKey _ _ | clearDrawFlag | requestStep _ | setStepsPerTick _ => exact .inr rfl

theorem not_running_of_pending {s : State} {o : HostOp} {rest : List HostOp} (h : s.host = o :: rest) : ¬ s.Running :=
  fun hrun => List.cons_ne_nil o rest (h.symm.trans hrun.1)

/-- Settles O53: the core hands the latch on or overwrites it (`coreStep_withLatch`), and so does the host. -/
theorem opcodeLatchIsNeverRead : Obligations.OpcodeLatchIsNeverRead := by
  unfold Obligations.OpcodeLatchIsNeverRead
  intro s t w h
  obtain ⟨o, rest, hh, ho, rfl⟩ | ⟨n, rest, hh, hcore⟩ | ⟨hh, hcore⟩ := step_cases h
  · refine ⟨_, step_hostOp (s := { s with opcode := w }) hh ho, ?_, fun hrun => absurd hrun (not_running_of_pending hh)⟩
    obtain he | he := hostOp_withLatch o { s with host := rest } w <;> exact he ▸ rfl
  · rw [step_requestStep (s := { s with opcode := w }) hh]
    obtain ⟨-, hu⟩ | ⟨-, hu⟩ := coreStep_withLatch w hcore <;>
      exact ⟨_, hu, rfl, fun hrun => absurd hrun (not_running_of_pending hh)⟩
  · rw [step_noHostOp (s := { s with opcode := w }) hh]
    obtain ⟨-, hu⟩ | ⟨hf, hu⟩ := coreStep_withLatch w hcore
    · exact ⟨_, hu, rfl, fun _ _ => rfl⟩
    · exact ⟨_, hu, rfl, fun _ ht => absurd ht hf⟩

end Sys2Proof.Machine
end

section
/-! PROOFS. Memory as instructions and data share it: the bytes of a fetched word, a fetch that does not fit, and a word that a
register store puts where the next fetch reads. -/

namespace Sys2Proof.Machine

/-! ### The bytes of a fetched word -/

/-- R42: the byte at the lower address is bits 15:8 of the word. -/
theorem wordOfBytes_highByte (a b : Byte) : (wordOfBytes a b).extractLsb' 8 8 = a := by
  apply BitVec.eq_of_toNat_eq
  have ha := a.isLt
  have hb := b.isLt
  rw [BitVec.extractLsb'_toNat, wordOfBytes_toNat, Nat.shiftRight_eq_div_pow]
  omega

/-- R42: the byte at the higher address is bits 7:0 of the word. -/
theorem wordOfBytes_lowByte (a b : Byte) : (wordOfBytes a b).extractLsb' 0 8 = b := by
  apply BitVec.eq_of_toNat_eq
  have hb := b.isLt
  rw [BitVec.extractLsb'_toNat, wordOfBytes_toNat, Nat.shiftRight_zero]
  omega

/-- Settles O5: `wordOfBytes` puts its first byte, the one at `pc`, in bits 15:8. -/
theorem fetchIsBigEndian : Obligations.FetchIsBigEndian := by
  unfold Obligations.FetchIsBigEndian
  exact fun s hpc => ⟨_, fetch_inside hpc, wordOfBytes_highByte _ _, wordOfBytes_lowByte _ _⟩

/-! ### A fetch that does not fit -/

/-- R45 (a), R152: a step that cannot fetch ends in the fault. -/
theorem runStep_fetch_outside {s : State} (h : 4095 ≤ s.pc.toNat) : runStep s = raise .fetchOutOfRange s.pc s := by
  rw [runStep, fetch_outside h]

/-- Settles O8: a running core whose fetch does not fit raises the fault, which writes the latch alone. -/
theorem fetchBeyondMemoryFaults : Obligations.FetchBeyondMemoryFaults := by
  unfold Obligations.FetchBeyondMemoryFaults
  intro s hrun hpc
  rw [step_running hrun, runStep_fetch_outside hpc, raise_eq]

/-! ### A word stored where the next fetch reads -/

/-- R42: the word of a fetch, at an address known as a number. -/
theorem fetch_at {s : State} {a : Nat} (hpc : s.pc.toNat = a) (ha : a ≤ 4094) :
    fetch s = some (wordOfBytes (s.mem.read a) (s.mem.read (a + 1))) := by
  subst hpc
  exact fetch_inside ha

/-- R124: a register store whose range is in memory completes. -/
theorem exec_stRegs_inside {x : Reg} {s : State} (h : s.index.toNat + x.val ≤ 4095) :
    exec (.stRegs x) s = .next ((s.advance.storeBytes s.index.toNat (s.regsUpTo x)).setIndex
      (s.index + BitVec.ofNat 16 (x.val + 1))) :=
  guardRange_inside (.inr h)

/-- R124: of the stored registers, `V[k]` is at offset `k`. -/
theorem read_writeBytes_regsUpTo (m : Memory) (a : Nat) (s : State) {x k : Reg} (hk : k.val ≤ x.val) :
    (m.writeBytes a (s.regsUpTo x)).read (a + k.val) = s.reg k := by
  rw [Memory.read_writeBytes_inside m a _ k.val (by rw [length_regsUpTo]; omega), getElem_regsUpTo]
  rfl

/-- Settles O34: the advanced `pc` is `I`, where the store has put `V[0]`, with `V[1]` behind it. -/
theorem storedWordIsFetchedNext : Obligations.StoredWordIsFetchedNext := by
  unfold Obligations.StoredWordIsFetchedNext
  intro x s hx hindex hrange
  have hpc : (s.pc + 2).toNat = s.index.toNat := by bv_omega
  have hV0 : (s.mem.writeBytes s.index.toNat (s.regsUpTo x)).read s.index.toNat = s.reg 0 :=
    read_writeBytes_regsUpTo s.mem _ s (k := 0) (Nat.zero_le _)
  have hV1 : (s.mem.writeBytes s.index.toNat (s.regsUpTo x)).read (s.index.toNat + 1) = s.reg 1 :=
    read_writeBytes_regsUpTo s.mem _ s (k := 1) hx
  refine ⟨_, exec_stRegs_inside hrange, ?_⟩
  rw [fetch_at hpc (by omega)]
  simp [hV0, hV1]

end Sys2Proof.Machine
end

section
/-! PROOFS. The decoder, the encoder and the opcode map say the same of a word (30_encoding.md R61 to R66). A word is its fields
put together and an encoded word has the fields put into it, so decoding and encoding undo each other. The rows of the map exclude
one another, so a word that is decoded fits the row of its instruction alone, and a word that fits a row is decoded. -/

namespace Sys2Proof

open Laws.FitsItsRow (fieldT_wordTNNN fieldT_wordTxyN)

/-! ### Sample words -/

/-- Settles O1, by running the decoder on each word. -/
theorem sampleWordsDecode : Obligations.SampleWordsDecode := by
  unfold Obligations.SampleWordsDecode
  decide

/-! ### The fields of an encoded word (R61) -/

section Fields

variable {t n : Nat} {nnn : Word} (x y : Reg)

theorem fieldNNN_wordTNNN (ht : t < 16) (h : AddressFits nnn) : fieldNNN (wordTNNN t nnn) = nnn := by
  apply BitVec.eq_of_toNat_eq
  rw [fieldNNN_toNat, wordTNNN_toNat ht h]; omega

theorem fieldT_wordTxNN (ht : t < 16) (hn : n < 256) : fieldT (wordTxNN t x n) = t := by
  have := x.isLt
  rw [fieldT_eq, wordTxNN_toNat x ht hn]; omega

theorem fieldX_wordTxNN (ht : t < 16) (hn : n < 256) : fieldX (wordTxNN t x n) = x := by
  apply Fin.ext
  rw [fieldX_val, wordTxNN_toNat x ht hn]; omega

theorem fieldNN_wordTxNN (ht : t < 16) (hn : n < 256) : fieldNN (wordTxNN t x n) = BitVec.ofNat 8 n := by
  rw [fieldNN_eq_iff, wordTxNN_toNat x ht hn, BitVec.toNat_ofNat]; omega

theorem fieldX_wordTxyN (ht : t < 16) (hn : RowCountFits n) : fieldX (wordTxyN t x y n) = x := by
  apply Fin.ext
  have := y.isLt
  rw [fieldX_val, wordTxyN_toNat x y ht (Nat.lt_succ_of_le hn)]; omega

theorem fieldY_wordTxyN (ht : t < 16) (hn : RowCountFits n) : fieldY (wordTxyN t x y n) = y := by
  apply Fin.ext
  rw [fieldY_val, wordTxyN_toNat x y ht (Nat.lt_succ_of_le hn)]; omega

theorem fieldN_wordTxyN (ht : t < 16) (hn : RowCountFits n) : fieldN (wordTxyN t x y n) = n := by
  rw [fieldN_eq, wordTxyN_toNat x y ht (Nat.lt_succ_of_le hn)]; omega

end Fields

/-! ### Decoding what was encoded, format by format (R63) -/

/-- Settles O2: the decoder dispatches on the fixed digits that the encoder has put in, and reads its operands back. -/
theorem decodeOfEncode : Obligations.DecodeOfEncode := by
  unfold Obligations.DecodeOfEncode
  intro i hi
  cases i with
  | cls | ret => rfl
  | jp nnn | call nnn | ldI nnn | jpV0 nnn =>
    have h : AddressFits nnn := of_decide_eq_true hi
    simp [encode, decode, fieldT_wordTNNN, fieldNNN_wordTNNN, h]
  | seImm x nn | sneImm x nn | ldImm x nn | addImm x nn | rnd x nn =>
    have h : nn.toNat < 256 := nn.isLt
    simp [encode, decode, fieldT_wordTxNN, fieldX_wordTxNN, fieldNN_wordTxNN, h]
  | skp x | sknp x =>
    simp [encode, decode, decodeE, fieldT_wordTxNN, fieldX_wordTxNN, fieldNN_wordTxNN]
  | ldVxDt x | ldVxK x | ldDtVx x | ldStVx x | addI x | ldF x | ldB x | stRegs x | ldRegs x =>
    simp [encode, decode, decodeF, fieldT_wordTxNN, fieldX_wordTxNN, fieldNN_wordTxNN]
  | ldReg x y | or x y | and x y | xor x y | addReg x y | sub x y | shr x y | subn x y | shl x y =>
    simp [encode, decode, decode8, fieldT_wordTxyN, fieldX_wordTxyN, fieldY_wordTxyN, fieldN_wordTxyN]
  | seReg x y | sneReg x y =>
    simp [encode, decode, decode5, decode9, fieldT_wordTxyN, fieldX_wordTxyN, fieldY_wordTxyN, fieldN_wordTxyN]
  | drw x y n =>
    have h : RowCountFits n := of_decide_eq_true hi
    simp [encode, decode, fieldT_wordTxyN, fieldX_wordTxyN, fieldY_wordTxyN, fieldN_wordTxyN, h]

/-! ### A word is its fields put together (R61) -/

theorem wordTNNN_of_fields {op : Word} {t : Nat} (hT : fieldT op = t) : wordTNNN t (fieldNNN op) = op := by
  subst hT
  apply BitVec.eq_of_toNat_eq
  have hNNN := fieldNNN_toNat op
  rw [wordTNNN_toNat (fieldT_lt op) (by omega), fieldT_eq, hNNN]; omega

theorem wordTxNN_of_fields {op : Word} {t : Nat} {nn : Byte} (hT : fieldT op = t) (hNN : fieldNN op = nn) :
    wordTxNN t (fieldX op) nn.toNat = op := by
  subst hT hNN
  apply BitVec.eq_of_toNat_eq
  rw [wordTxNN_toNat _ (fieldT_lt op) (fieldNN op).isLt, fieldT_eq, fieldX_val, fieldNN_toNat]; omega

theorem wordTxyN_of_fields {op : Word} {t n : Nat} (hT : fieldT op = t) (hN : fieldN op = n) :
    wordTxyN t (fieldX op) (fieldY op) n = op := by
  subst hT hN
  apply BitVec.eq_of_toNat_eq
  rw [wordTxyN_toNat _ _ (fieldT_lt op) (fieldN_lt op), fieldT_eq, fieldX_val, fieldY_val, fieldN_eq]; omega

/-! ### Encoding what was decoded, family by family (R64) -/

section Families

variable {op : Word} {i : Instr}

theorem encode_of_decode0 (h : decode0 op = .ok i) : encode i = op := by
  unfold decode0 at h
  split_ifs at h with hcls hret <;> cases h
  · exact hcls.symm
  · exact hret.symm

theorem encode_of_decode5 (hT : fieldT op = 0x5) (h : decode5 op = .ok i) : encode i = op := by
  unfold decode5 at h
  split_ifs at h with hN; cases h
  exact wordTxyN_of_fields hT hN

theorem encode_of_decode8 (hT : fieldT op = 0x8) (h : decode8 op = .ok i) : encode i = op := by
  unfold decode8 at h
  split at h <;> cases h
  all_goals exact wordTxyN_of_fields hT ‹_›

theorem encode_of_decode9 (hT : fieldT op = 0x9) (h : decode9 op = .ok i) : encode i = op := by
  unfold decode9 at h
  split_ifs at h with hN; cases h
  exact wordTxyN_of_fields hT hN

theorem encode_of_decodeE (hT : fieldT op = 0xE) (h : decodeE op = .ok i) : encode i = op := by
  unfold decodeE at h
  split_ifs at h <;> cases h
  all_goals exact wordTxNN_of_fields hT ‹_›

theorem encode_of_decodeF (hT : fieldT op = 0xF) (h : decodeF op = .ok i) : encode i = op := by
  unfold decodeF at h
  split_ifs at h <;> cases h
  all_goals exact wordTxNN_of_fields hT ‹_›

end Families

theorem encode_of_decode {op : Word} {i : Instr} (h : decode op = .ok i) : encode i = op := by
  unfold decode at h
  split at h
  case h_1 => exact encode_of_decode0 h
  case h_6 hT => exact encode_of_decode5 hT h
  case h_9 hT => exact encode_of_decode8 hT h
  case h_10 hT => exact encode_of_decode9 hT h
  case h_15 hT => exact encode_of_decodeE hT h
  case h_16 =>
    have hT : fieldT op = 0xF := by have := fieldT_lt op; grind
    exact encode_of_decodeF hT h
  case h_2 hT | h_3 hT | h_11 hT | h_12 hT => cases h; exact wordTNNN_of_fields hT
  case h_4 hT | h_5 hT | h_7 hT | h_8 hT | h_13 hT => cases h; exact wordTxNN_of_fields hT rfl
  case h_14 hT => cases h; exact wordTxyN_of_fields hT rfl

/-- Settles O3: every digit of the word is either checked by the decoder or kept as an operand. -/
theorem encodeOfDecode : Obligations.EncodeOfDecode := by
  unfold Obligations.EncodeOfDecode
  exact fun _ _ h => ⟨Machine.decode_wellFormed h, encode_of_decode h⟩

/-! ### The rows of the opcode map exclude one another (R65) -/

theorem OpcodeRow.fits_iff {row : OpcodeRow} {op : Word} : row.fits op = true ↔ op &&& row.mask = row.fixed := by
  simp [OpcodeRow.fits]

/-- Two rows agree where both fix a bit. -/
def OpcodeRow.Compatible (a b : OpcodeRow) : Prop := a.fixed &&& b.mask = b.fixed &&& a.mask

theorem OpcodeRow.compatible_of_fits {a b : OpcodeRow} {op : Word} (ha : a.fits op = true) (hb : b.fits op = true) :
    a.Compatible b := by
  rw [OpcodeRow.fits_iff] at ha hb
  rw [OpcodeRow.Compatible, ← ha, ← hb, BitVec.and_assoc, BitVec.and_assoc, BitVec.and_comm a.mask]

theorem opcodeTable_pairwise_not_compatible : opcodeTable.Pairwise fun a b => ¬ a.Compatible b := by
  unfold OpcodeRow.Compatible
  decide

/-- A row that fits a word is the only one. -/
theorem filter_fits_eq_singleton {row : OpcodeRow} {op : Word} (hmem : row ∈ opcodeTable) (hfit : row.fits op = true) :
    opcodeTable.filter (·.fits op) = [row] := by
  have hrow : row ∈ opcodeTable.filter (·.fits op) := List.mem_filter.mpr ⟨hmem, hfit⟩
  have hfits : ∀ a ∈ opcodeTable.filter (·.fits op), a.fits op = true := fun a ha => (List.mem_filter.mp ha).2
  have hpair : (opcodeTable.filter (·.fits op)).Pairwise fun a b => ¬ a.Compatible b :=
    opcodeTable_pairwise_not_compatible.filter _
  generalize opcodeTable.filter (·.fits op) = rows at hrow hfits hpair
  match rows with
  | [] => cases hrow
  | [a] => rw [List.mem_singleton.mp hrow]
  | a :: b :: rest =>
    have hab : ¬ a.Compatible b := List.rel_of_pairwise_cons hpair List.mem_cons_self
    exact absurd (OpcodeRow.compatible_of_fits (hfits a (by simp)) (hfits b (by simp))) hab

/-! ### A word that fits a row is decoded (R64, R65) -/

/-- The top digits of the rows that fix no other digit. -/
def digitsT : List Nat := [0x1, 0x2, 0x3, 0x4, 0x6, 0x7, 0xA, 0xB, 0xC, 0xD]

/-- The top and low digits of the rows that fix these two. -/
def digitsTN : List (Nat × Nat) :=
  [(0x5, 0x0), (0x8, 0x0), (0x8, 0x1), (0x8, 0x2), (0x8, 0x3), (0x8, 0x4), (0x8, 0x5), (0x8, 0x6), (0x8, 0x7), (0x8, 0xE),
   (0x9, 0x0)]

/-- The top digit and the low byte of the rows that fix these. -/
def digitsTNN : List (Nat × Nat) :=
  [(0xE, 0x9E), (0xE, 0xA1), (0xF, 0x07), (0xF, 0x0A), (0xF, 0x15), (0xF, 0x18), (0xF, 0x1E), (0xF, 0x29), (0xF, 0x33),
   (0xF, 0x55), (0xF, 0x65)]

/-- The rows of the opcode map, by what they fix. -/
theorem opcodeTable_cases : ∀ row ∈ opcodeTable,
    (row.mask = 0xFFFF ∧ (row.fixed = 0x00E0 ∨ row.fixed = 0x00EE)) ∨
    (row.mask = 0xF000 ∧ ∃ t ∈ digitsT, row.fixed = BitVec.ofNat 16 (0x1000 * t)) ∨
    (row.mask = 0xF00F ∧ ∃ d ∈ digitsTN, row.fixed = BitVec.ofNat 16 (0x1000 * d.1 + d.2)) ∨
    (row.mask = 0xF0FF ∧ ∃ d ∈ digitsTNN, row.fixed = BitVec.ofNat 16 (0x1000 * d.1 + d.2)) := by decide

section Accepted

variable {op : Word}

theorem decode_ok_of_fieldT (hd : fieldT op ∈ digitsT) : ∃ i, decode op = .ok i := by
  simp only [digitsT, List.mem_cons, List.not_mem_nil, or_false] at hd
  rcases hd with h | h | h | h | h | h | h | h | h | h <;> simp [decode, h]

theorem decode_ok_of_fieldT_fieldN (hd : (fieldT op, fieldN op) ∈ digitsTN) : ∃ i, decode op = .ok i := by
  simp only [digitsTN, List.mem_cons, List.not_mem_nil, or_false, Prod.mk.injEq] at hd
  rcases hd with h | h | h | h | h | h | h | h | h | h | h <;> simp [decode, decode5, decode8, decode9, h]

theorem decode_ok_of_fieldT_fieldNN (hd : (fieldT op, (fieldNN op).toNat) ∈ digitsTNN) : ∃ i, decode op = .ok i := by
  simp only [digitsTNN, List.mem_cons, List.not_mem_nil, or_false, Prod.mk.injEq] at hd
  rcases hd with h | h | h | h | h | h | h | h | h | h | h <;>
    simp [decode, decodeE, decodeF, ← BitVec.toNat_inj, h]

theorem decode_ok_of_fits {row : OpcodeRow} (hmem : row ∈ opcodeTable) (hfit : row.fits op = true) :
    ∃ i, decode op = .ok i := by
  rw [OpcodeRow.fits_iff] at hfit
  obtain ⟨hm, hf⟩ | ⟨hm, t, ht, hf⟩ | ⟨hm, d, hd, hf⟩ | ⟨hm, d, hd, hf⟩ := opcodeTable_cases row hmem <;>
    rw [hm] at hfit
  · have hop : op = row.fixed := by rw [← hfit]; exact BitVec.and_allOnes.symm
    obtain hf | hf := hf <;> rw [hop, hf]
    exacts [⟨.cls, by decide⟩, ⟨.ret, by decide⟩]
  · have hlt : ∀ t ∈ digitsT, t < 16 := by decide
    have hT := (and_F000_eq_iff op t (hlt t ht)).mp (hfit.trans hf)
    exact decode_ok_of_fieldT (hT ▸ ht)
  · have hlt : ∀ d ∈ digitsTN, d.1 < 16 ∧ d.2 < 16 := by decide
    obtain ⟨hT, hN⟩ := (and_F00F_eq_iff op d.1 d.2 (hlt d hd).1 (hlt d hd).2).mp (hfit.trans hf)
    exact decode_ok_of_fieldT_fieldN (by rwa [hT, hN])
  · have hlt : ∀ d ∈ digitsTNN, d.1 < 16 ∧ d.2 < 256 := by decide
    obtain ⟨hT, hNN⟩ := (and_F0FF_eq_iff op d.1 d.2 (hlt d hd).1 (hlt d hd).2).mp (hfit.trans hf)
    exact decode_ok_of_fieldT_fieldNN (by rwa [hT, hNN])

end Accepted

theorem filter_fits_eq_nil {op : Word} (h : ∀ i, decode op ≠ .ok i) : opcodeTable.filter (·.fits op) = [] := by
  rw [List.filter_eq_nil_iff]
  intro row hmem hfit
  obtain ⟨i, hi⟩ := decode_ok_of_fits hmem hfit
  exact h i hi

/-! ### The opcode map and the decoder -/

/-- R65: the word of a well-formed instruction fits the row that bears its name. -/
theorem encode_fits_row (i : Instr) : Laws.FitsItsRow.Statement i := by
  cases i with
  | cls => exact Laws.FitsItsRow.cls
  | ret => exact Laws.FitsItsRow.ret
  | jp nnn => exact Laws.FitsItsRow.jp nnn
  | call nnn => exact Laws.FitsItsRow.call nnn
  | seImm x nn => exact Laws.FitsItsRow.seImm x nn
  | sneImm x nn => exact Laws.FitsItsRow.sneImm x nn
  | seReg x y => exact Laws.FitsItsRow.seReg x y
  | ldImm x nn => exact Laws.FitsItsRow.ldImm x nn
  | addImm x nn => exact Laws.FitsItsRow.addImm x nn
  | ldReg x y => exact Laws.FitsItsRow.ldReg x y
  | or x y => exact Laws.FitsItsRow.or x y
  | and x y => exact Laws.FitsItsRow.and x y
  | xor x y => exact Laws.FitsItsRow.xor x y
  | addReg x y => exact Laws.FitsItsRow.addReg x y
  | sub x y => exact Laws.FitsItsRow.sub x y
  | shr x y => exact Laws.FitsItsRow.shr x y
  | subn x y => exact Laws.FitsItsRow.subn x y
  | shl x y => exact Laws.FitsItsRow.shl x y
  | sneReg x y => exact Laws.FitsItsRow.sneReg x y
  | ldI nnn => exact Laws.FitsItsRow.ldI nnn
  | jpV0 nnn => exact Laws.FitsItsRow.jpV0 nnn
  | rnd x nn => exact Laws.FitsItsRow.rnd x nn
  | drw x y n => exact Laws.FitsItsRow.drw x y n
  | skp x => exact Laws.FitsItsRow.skp x
  | sknp x => exact Laws.FitsItsRow.sknp x
  | ldVxDt x => exact Laws.FitsItsRow.ldVxDt x
  | ldVxK x => exact Laws.FitsItsRow.ldVxK x
  | ldDtVx x => exact Laws.FitsItsRow.ldDtVx x
  | ldStVx x => exact Laws.FitsItsRow.ldStVx x
  | addI x => exact Laws.FitsItsRow.addI x
  | ldF x => exact Laws.FitsItsRow.ldF x
  | ldB x => exact Laws.FitsItsRow.ldB x
  | stRegs x => exact Laws.FitsItsRow.stRegs x
  | ldRegs x => exact Laws.FitsItsRow.ldRegs x

/-- Settles O4: a decoded word is the word of its instruction, so it fits that row, and no other; a word that fits a row is not
rejected. -/
theorem decoderFollowsOpcodeTable : Obligations.DecoderFollowsOpcodeTable := by
  unfold Obligations.DecoderFollowsOpcodeTable
  intro op
  cases h : decode op with
  | ok i =>
    obtain ⟨row, hmem, hname, hfit⟩ := encode_fits_row i (Machine.decode_wellFormed h)
    rw [encode_of_decode h] at hfit
    simp [filter_fits_eq_singleton hmem hfit, hname]
  | error r =>
    simp [filter_fits_eq_nil (op := op) (by simp [h])]

end Sys2Proof
end

section
/-! PROOFS. The step cycle of a running core (40_step_cycle.md R80 to R88): what a step makes of the word it fetches, and the end of
a completing step. A statement about one instruction in a step is its `exec` and `step_completes`. -/

namespace Sys2Proof.Machine

/-! ### What a step makes of the word it fetches -/

/-- R87: a halted core ignores a step request, before it looks at `steps_per_tick` (log 8). -/
theorem coreStep_halted {s : State} (h : s.fault ≠ none) : coreStep s = .next s :=
  if_pos (Option.isSome_iff_ne_none.mpr h)

/-- R80, R81: a fetched word that decodes is executed. -/
theorem step_decoded {s : State} {op : Word} {i : Instr} (hrun : s.Running) (hop : fetch s = some op)
    (hd : decode op = .ok i) : step s = endInstruction op (exec i s) := by
  rw [step_running hrun, runStep, hop]
  simp only [hd]

/-- R85: a fetched word that the decoder rejects is passed over. -/
theorem step_rejected {s : State} {op : Word} {r : Reject} (hrun : s.Running) (hop : fetch s = some op)
    (hd : decode op = .error r) : step s = .next (finishStep op (unknownOpcode op s)) := by
  rw [step_running hrun, runStep, hop]
  simp only [hd]

/-- R80: a step whose instruction takes no fault completes. -/
theorem step_completes {s t : State} {op : Word} {i : Instr} (hrun : s.Running) (hop : fetch s = some op)
    (hd : decode op = .ok i) (he : exec i s = .next t) (ht : t.fault = none) : step s = .next (finishStep op t) := by
  rw [step_decoded hrun hop hd, he, endInstruction_completes ht]

/-- Settles O6: `step_decoded`, and the end of a step by the latch that the instruction leaves. -/
theorem stepRunsDecodedInstruction : Obligations.StepRunsDecodedInstruction := by
  unfold Obligations.StepRunsDecodedInstruction
  intro s i hrun hpc hd
  rw [step_decoded hrun (fetch_inside hpc) hd]
  cases exec i s with
  | next t =>
    by_cases hf : t.fault = none
    · exact (endInstruction_completes hf).trans (if_pos hf).symm
    · obtain ⟨r, hr⟩ := Option.ne_none_iff_exists'.mp hf
      exact (endInstruction_faults hr).trans (if_neg hf).symm
  | fault r => rfl
  | refused r => rfl

/-- Settles O7, by `step_rejected`. -/
theorem unrecognisedWordOnlyAdvances : Obligations.UnrecognisedWordOnlyAdvances := by
  unfold Obligations.UnrecognisedWordOnlyAdvances
  exact fun s r hrun hpc hd => step_rejected hrun (fetch_inside hpc) hd

/-- Settles O9: with no operation pending the step is the core's, which is halted. -/
theorem haltedCoreIgnoresSteps : Obligations.HaltedCoreIgnoresSteps := by
  unfold Obligations.HaltedCoreIgnoresSteps
  intro s hhost hf
  rw [step_noHostOp hhost, coreStep_halted hf]

/-! ### The end of a completing step -/

/-- R158: a completing step whose tick is due counts the timers down, as its instruction has left them. -/
theorem finishStep_fires {op : Word} {s : State} (h : s.stepsPerTick ≤ s.tickCount + 1) :
    finishStep op s = { s with opcode := op, tickCount := 0, dt := countDown s.dt, st := countDown s.st } :=
  tick_fires (s := { s with opcode := op }) h

/-- R158: the tick phase writes `tick_count` and the timers only. -/
theorem tick_frame (s : State) : tick s = { s with tickCount := (tick s).tickCount, dt := (tick s).dt, st := (tick s).st } := by
  by_cases h : s.stepsPerTick ≤ s.tickCount + 1
  · rw [tick_fires h]
  · rw [tick_counts (Nat.lt_of_not_le h)]

/-- R31, R158: the end of a completing step writes `opcode`, `tick_count` and the timers only. -/
theorem finishStep_frame (op : Word) (s : State) :
    finishStep op s = { s with
      opcode := op, tickCount := (finishStep op s).tickCount, dt := (finishStep op s).dt, st := (finishStep op s).st } :=
  tick_frame { s with opcode := op }

/-- Settles O43: `finishStep_fires` on the state that the timer write or the timer read leaves. -/
theorem tickFollowsTheInstruction : Obligations.TickFollowsTheInstruction := by
  unfold Obligations.TickFollowsTheInstruction
  intro x s hrun hpc hdue
  have ⟨_, hclear, _⟩ := hrun
  constructor
  · intro hd
    have hstep := step_completes hrun (fetch_inside hpc) hd (t := s.advance.setDelay (s.reg x)) rfl hclear
    rw [finishStep_fires (s := s.advance.setDelay (s.reg x)) hdue] at hstep
    exact ⟨_, hstep, countDown_toNat _, countDown_toNat _, rfl⟩
  · intro hd
    have hstep := step_completes hrun (fetch_inside hpc) hd (t := s.advance.setReg x s.dt) rfl hclear
    rw [finishStep_fires (s := s.advance.setReg x s.dt) hdue] at hstep
    have hread : (s.advance.setReg x s.dt).reg x = s.dt := by rw [reg_setReg, if_pos rfl]
    exact ⟨_, hstep, hread, countDown_toNat _, rfl⟩

/-- R91: a jump to its own address undoes the advance. -/
theorem exec_jp_self (s : State) : exec (.jp s.pc) s = .next s := rfl

/-- Settles O54: the jump leaves the state as it is, and the end of the step writes the named elements only. -/
theorem selfJumpSpins : Obligations.SelfJumpSpins := by
  unfold Obligations.SelfJumpSpins
  intro s hrun hpc hd
  have ⟨_, hclear, _⟩ := hrun
  exact ⟨_, step_completes hrun (fetch_inside hpc) hd (exec_jp_self s) hclear, finishStep_frame _ s⟩

end Sys2Proof.Machine
end

section
/-! PROOFS. The control transfer instructions (41_control_transfer.md R90 to R98): jumps and skips write `pc` alone; a call and a
return write the stack by the rules of `execCall_cases` and `execRet_cases`, and one after the other they compose. -/

namespace Sys2Proof.Machine

/-! ### Jumps -/

theorem framePc_jump (s : State) (target : Word) : FramePc s (s.advance.jump target) := ⟨rfl, fun _ => rfl⟩

/-- R97: an address of 12 bits and a byte are too small for their sum to wrap. -/
theorem addressPlusByte_toNat {nnn : Word} (h : AddressFits nnn) (val : Byte) :
    (nnn + val.setWidth 16).toNat = nnn.toNat + val.toNat := by
  have := val.isLt
  rw [BitVec.toNat_add, BitVec.toNat_setWidth]; omega

/-- Settles O21: both jumps write their target to `pc`, and the target of `Bnnn` does not wrap. -/
theorem jumpResults : Obligations.JumpResults := by
  unfold Obligations.JumpResults
  exact fun nnn s hn =>
    ⟨⟨_, rfl, rfl, framePc_jump s _⟩, ⟨_, rfl, addressPlusByte_toNat hn (s.reg 0), framePc_jump s _⟩⟩

/-! ### Skips (R98) -/

theorem framePc_skipIf (s : State) (taken : Bool) : FramePc s (s.advance.skipIf taken) := by
  cases taken <;> exact ⟨rfl, fun _ => rfl⟩

/-- R98: a skip that is taken passes over one word. -/
theorem skipIf_advance_pc (s : State) (taken : Bool) :
    (s.advance.skipIf taken).pc = if taken then s.pc + 4 else s.pc + 2 := by
  rw [State.skipIf_pc, State.advance_pc, BitVec.add_assoc]; rfl

theorem skipIf_beq_pc (s : State) (p q : Byte) :
    (s.advance.skipIf (p == q)).pc = if p = q then s.pc + 4 else s.pc + 2 := by
  simp only [skipIf_advance_pc, beq_iff_eq]

theorem skipIf_bne_pc (s : State) (p q : Byte) :
    (s.advance.skipIf (p != q)).pc = if p = q then s.pc + 2 else s.pc + 4 := by
  simp only [skipIf_advance_pc, bne_iff_ne, ne_eq, ite_not]

/-- Settles O24: the words are the encodings of the two instructions, which compare `V[x]` with the immediate. -/
theorem immediateSkipResults : Obligations.ImmediateSkipResults := by
  unfold Obligations.ImmediateSkipResults
  exact fun x nn s =>
    ⟨decodeOfEncode (.seImm x nn) rfl, decodeOfEncode (.sneImm x nn) rfl,
      ⟨_, rfl, skipIf_beq_pc s _ _, framePc_skipIf s _⟩, ⟨_, rfl, skipIf_bne_pc s _ _, framePc_skipIf s _⟩⟩

/-- Settles O25: the two instructions compare `V[x]` with `V[y]`. -/
theorem registerSkipResults : Obligations.RegisterSkipResults := by
  unfold Obligations.RegisterSkipResults
  exact fun x y s =>
    ⟨⟨_, rfl, skipIf_beq_pc s _ _, framePc_skipIf s _⟩, ⟨_, rfl, skipIf_bne_pc s _ _, framePc_skipIf s _⟩⟩

/-! ### Calls and returns -/

/-- Two steps that each write at most the stack, `sp` and `pc` do so together. -/
theorem FrameStack.trans {s t u : State} (hst : FrameStack s t) (htu : FrameStack t u) : FrameStack s u := by
  obtain ⟨ht, hbytes⟩ := hst
  obtain ⟨hu, hbytes'⟩ := htu
  exact ⟨hu.trans (by rw [ht]), fun a => (hbytes' a).trans (hbytes a)⟩

/-- Settles O22: with a free slot the call pushes (`execCall_cases`). -/
theorem callResult : Obligations.CallResult := by
  unfold Obligations.CallResult
  intro nnn s hsp
  obtain ⟨hfull, -⟩ | ⟨hfree, he⟩ := execCall_cases nnn s
  · omega
  · refine ⟨_, he, rfl, rfl, fun k => ?_, rfl, fun _ => rfl⟩
    simp only [Vector.getElem_set, eq_comm]

/-- Settles O23: with an entry to pop the return goes to the one below `sp` (`execRet_cases`). -/
theorem returnResult : Obligations.ReturnResult := by
  unfold Obligations.ReturnResult
  intro s hsp
  obtain ⟨hempty, -⟩ | ⟨hentry, he⟩ := execRet_cases s
  · omega
  · refine ⟨_, he, rfl, rfl, fun k hk => ?_, rfl, fun _ => rfl⟩
    simp only [← hk, Nat.add_sub_cancel]

/-- Settles O26: the call leaves `sp` above 0 (`callResult`), so the return pops the entry that the call has pushed and leaves the
stack as it is (`returnResult`). -/
theorem callThenReturnRoundTrip : Obligations.CallThenReturnRoundTrip := by
  unfold Obligations.CallThenReturnRoundTrip
  intro nnn s hsp
  obtain ⟨t, hcall, -, htsp, htstack, hst⟩ := callResult nnn s hsp
  obtain ⟨u, hret, husp, hustack, hupc, htu⟩ := returnResult t (by omega)
  refine ⟨t, u, hcall, hret, ?_, Fin.ext (by omega), fun k => ?_, hst.trans htu⟩
  · rw [hupc ⟨s.sp.val, hsp⟩ htsp.symm, htstack, if_pos rfl]
  · simp only [hustack, htstack]

end Sys2Proof.Machine
end

section
/-! PROOFS. The register load, arithmetic, logic, shift and random instructions (42_alu.md R100 to R113). Each computes a value
and writes it to `V[x]`, five of them a flag to `V[15]` after it. What the two writes leave is said once; the rest is what the
value and the flag are as numbers. -/

namespace Sys2Proof.Machine

/-! ### Writing a result -/

theorem reg_setReg_same (s : State) (x : Reg) (val : Byte) : (s.setReg x val).reg x = val := by
  rw [reg_setReg, if_pos rfl]

theorem frameReg_setReg (s : State) (x : Reg) (val : Byte) : FrameReg x s (s.advance.setReg x val) :=
  ⟨⟨rfl, fun _ => rfl⟩, fun _ hk => reg_setReg_other hk⟩

/-- Settles O14: the word is the encoding of the instruction, which writes the immediate. -/
theorem loadImmediateResult : Obligations.LoadImmediateResult := by
  unfold Obligations.LoadImmediateResult
  exact fun x nn s =>
    ⟨decodeOfEncode (.ldImm x nn) rfl, _, rfl, reg_setReg_same _ x nn, rfl, frameReg_setReg s x nn⟩

/-- Settles O15: the word is the encoding of the instruction, and the sum of two bytes is taken modulo 256. -/
theorem addImmediateResult : Obligations.AddImmediateResult := by
  unfold Obligations.AddImmediateResult
  intro x nn s
  refine ⟨decodeOfEncode (.addImm x nn) rfl, _, rfl, ?_, rfl, frameReg_setReg s x _⟩
  rw [reg_setReg_same, BitVec.toNat_add]

/-- Settles O16: each of the four writes one value to `V[x]`, whose bits the library gives. -/
theorem copyAndLogicResults : Obligations.CopyAndLogicResults := by
  unfold Obligations.CopyAndLogicResults
  intro x y s
  refine ⟨⟨_, rfl, reg_setReg_same _ x _, rfl, frameReg_setReg s x _⟩,
    ⟨_, rfl, fun b => ?or, rfl, frameReg_setReg s x _⟩, ⟨_, rfl, fun b => ?and, rfl, frameReg_setReg s x _⟩,
    ⟨_, rfl, fun b => ?xor, rfl, frameReg_setReg s x _⟩⟩
  case or => rw [reg_setReg_same, BitVec.getLsbD_or]
  case and => rw [reg_setReg_same, BitVec.getLsbD_and]
  case xor => rw [reg_setReg_same, BitVec.getLsbD_xor]

/-- Settles O20: the draw counts on, and the byte it gave is masked and written to `V[x]`. -/
theorem randomByteResult : Obligations.RandomByteResult := by
  unfold Obligations.RandomByteResult
  intro x nn s
  refine ⟨_, rfl, fun b => ?_, rfl, rfl, fun _ hk => reg_setReg_other hk, rfl, fun _ => rfl⟩
  rw [reg_setReg_same, BitVec.getLsbD_and]; rfl

/-! ### Writing a result and a flag (R112) -/

theorem frameRegFlag_setRegAndFlag (s : State) (x : Reg) (val : Byte) (flag : Bool) :
    FrameRegFlag x s (s.advance.setRegAndFlag x val flag) := by
  refine ⟨⟨rfl, fun _ => rfl⟩, fun k hx hflag => ?_⟩
  rw [reg_setRegAndFlag, if_neg hflag, if_neg hx, reg_advance]

/-- R112: an instruction that writes the result `val` and then `flag` leaves `val` in `V[x]` unless `x = 15`, and `flag` in
`V[15]`. Its two hypotheses say what these are as numbers. -/
theorem setRegAndFlag_results {i : Instr} {s : State} {x : Reg} {val : Byte} {flag : Bool} {result bit : Nat}
    (hexec : exec i s = .next (s.advance.setRegAndFlag x val flag)) (hval : val.toNat = result)
    (hflag : (flagByte flag).toNat = bit) :
    ∃ t, exec i s = .next t ∧ (x ≠ 15 → (t.reg x).toNat = result) ∧ (t.reg 15).toNat = bit ∧ t.pc = s.pc + 2 ∧
      FrameRegFlag x s t := by
  refine ⟨_, hexec, fun hx => ?_, ?_, rfl, frameRegFlag_setRegAndFlag s x val flag⟩
  · rw [reg_setRegAndFlag, if_neg hx, if_pos rfl, hval]
  · rw [reg_setRegAndFlag, if_pos rfl, hflag]

/-! ### The flags as numbers (R21) -/

theorem flagByte_carryOut (p q : Byte) :
    (flagByte (carryOut p q)).toNat = if 255 < p.toNat + q.toNat then 1 else 0 := by
  simp only [flagByte_toNat, carryOut_iff]

theorem flagByte_notBorrow (p q : Byte) : (flagByte (notBorrow p q)).toNat = if q.toNat ≤ p.toNat then 1 else 0 := by
  simp only [flagByte_toNat, notBorrow_iff]

theorem flagByte_shiftedOutRight (p : Byte) : (flagByte (shiftedOutRight p)).toNat = p.toNat % 2 := by
  simp only [flagByte_toNat, shiftedOutRight_iff]
  split <;> omega

theorem flagByte_shiftedOutLeft (p : Byte) : (flagByte (shiftedOutLeft p)).toNat = p.toNat / 128 := by
  have := p.isLt
  simp only [flagByte_toNat, shiftedOutLeft_iff]
  split <;> omega

/-! ### Sums, differences and shifts -/

/-- R110: a left shift by one doubles modulo 256. -/
theorem shiftLeft_one_toNat (p : Byte) : (p <<< 1).toNat = 2 * p.toNat % 256 := by
  rw [BitVec.toNat_shiftLeft, Nat.shiftLeft_eq, Nat.mul_comm]

/-- R108: a right shift by one halves. -/
theorem shiftRight_one_toNat (p : Byte) : (p >>> 1).toNat = p.toNat / 2 := by
  rw [BitVec.toNat_ushiftRight, Nat.shiftRight_one]

/-- Settles O17, by `setRegAndFlag_results` for the sum and its carry. -/
theorem addRegisterResult : Obligations.AddRegisterResult := by
  unfold Obligations.AddRegisterResult
  exact fun x y s => setRegAndFlag_results rfl (BitVec.toNat_add _ _) (flagByte_carryOut _ _)

/-- Settles O18, by `setRegAndFlag_results` for the two differences and their not-borrow flags. -/
theorem subtractResults : Obligations.SubtractResults := by
  unfold Obligations.SubtractResults
  exact fun x y s =>
    ⟨setRegAndFlag_results rfl (sub_toNat_wrap _ _) (flagByte_notBorrow _ _),
      setRegAndFlag_results rfl (sub_toNat_wrap _ _) (flagByte_notBorrow _ _)⟩

/-- Settles O19, by `setRegAndFlag_results` for the two shifts and the bits they move out. -/
theorem shiftResults : Obligations.ShiftResults := by
  unfold Obligations.ShiftResults
  exact fun x y s =>
    ⟨setRegAndFlag_results rfl (shiftRight_one_toNat _) (flagByte_shiftedOutRight _),
      setRegAndFlag_results rfl (shiftLeft_one_toNat _) (flagByte_shiftedOutLeft _)⟩

end Sys2Proof.Machine
end

section
/-! PROOFS. The index and memory transfer instructions (43_index_memory.md R120 to R126). Three write `I` alone; the other three
move bytes between registers and memory once their range is known to be in memory, and a load undoes a store. -/

namespace Sys2Proof.Machine

/-! ### Instructions that write `I` alone -/

theorem frameIndex_setIndex (s : State) (addr : Word) : FrameIndex s (s.advance.setIndex addr) := ⟨rfl, fun _ => rfl⟩

/-- Settles O27: the word is the encoding of the instruction, which writes the address. -/
theorem loadIndexResult : Obligations.LoadIndexResult := by
  unfold Obligations.LoadIndexResult
  exact fun nnn s hn => ⟨decodeOfEncode (.ldI nnn) (decide_eq_true hn), _, rfl, rfl, rfl, frameIndex_setIndex s nnn⟩

/-- R121: a word plus a byte, modulo 65536. -/
theorem wordPlusByte_toNat (w : Word) (val : Byte) : (w + val.setWidth 16).toNat = (w.toNat + val.toNat) % 65536 := by
  rw [BitVec.toNat_add, BitVec.toNat_setWidth_of_le (by decide)]

/-- Settles O28, by `wordPlusByte_toNat`. -/
theorem addIndexResult : Obligations.AddIndexResult := by
  unfold Obligations.AddIndexResult
  exact fun x s => ⟨_, rfl, wordPlusByte_toNat _ _, rfl, frameIndex_setIndex s _⟩

/-- R65: `Fx29` is the word of `LD F, Vx`. -/
theorem encode_ldF (x : Reg) : encode (.ldF x) = BitVec.ofNat 16 (0xF029 + 0x100 * x.val) :=
  congrArg (BitVec.ofNat 16) (by omega)

/-- Settles O29: the word is the encoding of the instruction, which writes the glyph's address (`glyphAddress_toNat`). -/
theorem glyphAddressResult : Obligations.GlyphAddressResult := by
  unfold Obligations.GlyphAddressResult
  intro x s
  rw [← encode_ldF]
  exact ⟨decodeOfEncode (.ldF x) rfl, _, rfl, glyphAddress_toNat _, rfl, frameIndex_setIndex s _⟩

/-! ### Decimal digits -/

/-- R123: where the digits are stored, hundreds, tens and ones are read. -/
theorem read_writeBytes_decimalDigits (m : Memory) (a : Nat) (val : Byte) :
    ((m.writeBytes a (decimalDigits val)).read a).toNat = val.toNat / 100 ∧
      ((m.writeBytes a (decimalDigits val)).read (a + 1)).toNat = val.toNat / 10 % 10 ∧
      ((m.writeBytes a (decimalDigits val)).read (a + 2)).toNat = val.toNat % 10 := by
  have hval := val.isLt
  have hread (k : Nat) (hk : k < 3) := Memory.read_writeBytes_inside m a (decimalDigits val) k hk
  refine ⟨?hundreds, ?tens, ?ones⟩
  case hundreds => exact (congrArg BitVec.toNat (hread 0 (by decide))).trans (Nat.mod_eq_of_lt (by omega))
  case tens => exact (congrArg BitVec.toNat (hread 1 (by decide))).trans (Nat.mod_eq_of_lt (by omega))
  case ones => exact (congrArg BitVec.toNat (hread 2 (by decide))).trans (Nat.mod_eq_of_lt (by omega))

/-- Settles O30: the range check lets the store through, and the stored digits are those of `V[x]`
(`read_writeBytes_decimalDigits`). -/
theorem decimalStoreResult : Obligations.DecimalStoreResult := by
  unfold Obligations.DecimalStoreResult
  intro x s hrange
  have hval := (s.reg x).isLt
  obtain ⟨hhundreds, htens, hones⟩ := read_writeBytes_decimalDigits s.mem s.index.toNat (s.reg x)
  refine ⟨_, guardRange_inside (.inr hrange), ?_⟩
  simp only [State.byte_eq, State.storeBytes_mem, State.advance_mem, hhundreds, htens, hones]
  exact ⟨by omega, by omega, by omega, by omega, fun a => Memory.read_writeBytes_outside s.mem _ (decimalDigits (s.reg x)) a,
    rfl, rfl⟩

/-! ### Register transfers -/

/-- R124, R125: behind a transfer inside the memory, `I` does not wrap. -/
theorem indexBehindTransfer_toNat {b : Word} {x : Reg} (h : b.toNat + x.val ≤ 4095) :
    (b + BitVec.ofNat 16 (x.val + 1)).toNat = b.toNat + x.val + 1 := by
  rw [BitVec.toNat_add, BitVec.toNat_ofNat]; omega

/-- Settles O31: the bytes stored are `V[0]` to `V[x]` (`read_writeBytes_regsUpTo`), and no other byte is written. -/
theorem storeRegistersResult : Obligations.StoreRegistersResult := by
  unfold Obligations.StoreRegistersResult
  intro x s hrange
  refine ⟨_, exec_stRegs_inside hrange, fun k hk => read_writeBytes_regsUpTo s.mem _ s hk, fun a ha => ?_,
    indexBehindTransfer_toNat hrange, rfl, rfl⟩
  exact Memory.read_writeBytes_outside s.mem _ _ a (by rwa [length_regsUpTo])

/-- R125: a register load whose range is in memory completes. -/
theorem exec_ldRegs_inside {x : Reg} {s : State} (h : s.index.toNat + x.val ≤ 4095) :
    exec (.ldRegs x) s = .next ((s.advance.loadRegs x s.index.toNat).setIndex
      (s.index + BitVec.ofNat 16 (x.val + 1))) :=
  guardRange_inside (.inr h)

/-- R125: a register load writes `V`, `I` and `pc` only. -/
theorem loadRegs_frame (s : State) (x : Reg) (b : Nat) (addr : Word) :
    (s.advance.loadRegs x b).setIndex addr =
      { s with v := (s.advance.loadRegs x b).v, index := addr, pc := s.pc + 2 } := by
  simp only [State.setIndex, State.loadRegs, State.advance]

/-- Settles O32: `reg_loadRegs` says what each register holds, and `loadRegs_frame` that nothing else is written. -/
theorem loadRegistersResult : Obligations.LoadRegistersResult := by
  unfold Obligations.LoadRegistersResult
  intro x s hrange
  refine ⟨_, exec_ldRegs_inside hrange, fun k => ?_, indexBehindTransfer_toNat hrange, rfl,
    loadRegs_frame s x _ _, fun _ => rfl⟩
  rw [reg_eq_of_v_eq (State.setIndex_v _ _), reg_loadRegs]; rfl

/-- Settles O33: the load reads the bytes that the store has written (`storeRegistersResult`, `loadRegistersResult`), whatever the
registers hold in between, and both move `I` by the same amount. -/
theorem storeThenLoadRegistersRoundTrip : Obligations.StoreThenLoadRegistersRoundTrip := by
  unfold Obligations.StoreThenLoadRegistersRoundTrip
  intro x s v' hrange
  obtain ⟨t, hstore, hbytes, -, htindex, -⟩ := storeRegistersResult x s hrange
  obtain ⟨u, hload, huregs, huindex, -⟩ := loadRegistersResult x { t with index := s.index, v := v' } hrange
  refine ⟨t, u, hstore, hload, fun k hk => ?_, BitVec.eq_of_toNat_eq (huindex.trans htindex.symm)⟩
  exact (huregs k).trans ((if_pos hk).trans (hbytes k hk))

end Sys2Proof.Machine
end

section
/-! PROOFS. The frame buffer instructions (44_display.md R130, R131, R133): clearing leaves no pixel, and a sprite turns over the
pixels it covers, so that drawing it again turns the same pixels back. -/

namespace Sys2Proof.Machine

/-! ### Clearing -/

theorem pixelOf_cleared (c r : Nat) : pixelOf (Vector.replicate 32 0) c r = false := by
  unfold pixelOf
  split <;> simp

/-- Settles O35: the word is the encoding of the instruction, and a cleared buffer has no pixel (`pixelOf_cleared`). -/
theorem clearScreenResult : Obligations.ClearScreenResult := by
  unfold Obligations.ClearScreenResult
  exact ⟨decodeOfEncode .cls rfl, fun s =>
    ⟨_, rfl, pixelOf_cleared, fun _ => if_neg (Bool.eq_false_iff.mp (pixelOf_cleared _ _)), rfl, rfl, rfl, fun _ => rfl⟩⟩

/-! ### Drawing a sprite -/

theorem flagByte_eq_one_or_zero (b : Bool) : flagByte b = 1 ∨ flagByte b = 0 := by
  cases b
  · exact .inr rfl
  · exact .inl rfl

theorem flagByte_eq_one_iff (b : Bool) : flagByte b = 1 ↔ b = true := by
  cases b <;> decide

/-- R131: the exclusive OR of the sprite and the frame buffer, at one pixel. -/
theorem pixelOf_drawSprite (s : State) (x y : Reg) (n c r : Nat) [Decidable (SpriteCovers s x y n c r)] :
    pixelOf (s.drawSprite x y n).video c r = (s.pixel c r ^^ decide (SpriteCovers s x y n c r)) := by
  have hdec := decidable_of_iff' _ (rowsCover_sprite s x y n c r)
  have hrows := pixelOf_drawRows ⟨s.video, false⟩ (s.mem.readBytes s.index.toNat n) ((s.reg x).toNat % 64)
    ((s.reg y).toNat % 32) c r
  exact hrows.trans (congrArg _ (decide_eq_decide.mpr (rowsCover_sprite s x y n c r)))

/-- R131: a sprite turns over what it covers. -/
theorem pixelOf_drawSprite_covered {s : State} {x y : Reg} {n c r : Nat} (h : SpriteCovers s x y n c r) :
    pixelOf (s.drawSprite x y n).video c r = !s.pixel c r := by
  classical rw [pixelOf_drawSprite, decide_eq_true h, Bool.xor_true]

/-- R131: a sprite leaves what it does not cover. -/
theorem pixelOf_drawSprite_uncovered {s : State} {x y : Reg} {n c r : Nat} (h : ¬ SpriteCovers s x y n c r) :
    pixelOf (s.drawSprite x y n).video c r = s.pixel c r := by
  classical rw [pixelOf_drawSprite, decide_eq_false h, Bool.xor_false]

/-- R131: a sprite collides exactly when it covers a set pixel. -/
theorem hit_drawSprite (s : State) (x y : Reg) (n : Nat) :
    (s.drawSprite x y n).hit = true ↔ ∃ c r, SpriteCovers s x y n c r ∧ s.pixel c r = true := by
  rw [State.drawSprite, hit_drawRows, or_iff_right Bool.false_ne_true]
  exact exists_congr fun c => exists_congr fun r => and_congr_left' (rowsCover_sprite s x y n c r)

/-- R131: a draw whose sprite is in memory completes, and `V[15]` holds its collision. -/
theorem exec_drw_inside {x y : Reg} {n : Nat} {s : State} (h : RangeInMemory s.index.toNat n) :
    exec (.drw x y n) s = .next ((s.advance.setVideo (s.drawSprite x y n).video).setReg 15
      (flagByte (s.drawSprite x y n).hit)) :=
  guardRange_inside h

/-- Settles O36: the draw completes (`exec_drw_inside`), and what it does to each pixel and to `V[15]` is what the sprite does
to them (`pixelOf_drawSprite_covered`, `pixelOf_drawSprite_uncovered`, `hit_drawSprite`). -/
theorem drawSpriteResult : Obligations.DrawSpriteResult := by
  unfold Obligations.DrawSpriteResult
  intro x y n s hrange
  refine ⟨_, exec_drw_inside hrange, fun c r => pixelOf_drawSprite_covered, fun c r => pixelOf_drawSprite_uncovered, ?_, ?_,
    fun k hk => reg_setReg_other hk, rfl, rfl, rfl, fun _ => rfl⟩
  · rw [reg_setReg_same]
    exact flagByte_eq_one_or_zero _
  · rw [reg_setReg_same, flagByte_eq_one_iff, hit_drawSprite]

/-! ### Drawing it again -/

/-- R133: which pixels a sprite covers depends on its place, `I` and memory only. -/
theorem spriteCovers_congr {s t : State} {x y : Reg} (hx : t.reg x = s.reg x) (hy : t.reg y = s.reg y)
    (hindex : t.index = s.index) (hbytes : SameBytes s t) (n c r : Nat) :
    SpriteCovers t x y n c r ↔ SpriteCovers s x y n c r := by
  simp only [SpriteCovers, hx, hy, hindex, hbytes _]

/-- Settles O37: both draws cover the same pixels (`spriteCovers_congr`), so by `drawSpriteResult` each of these is turned over
twice, and the second draw finds set exactly those that the first one set. -/
theorem drawTwiceRestoresFrameBuffer : Obligations.DrawTwiceRestoresFrameBuffer := by
  unfold Obligations.DrawTwiceRestoresFrameBuffer
  intro x y n s hx hy hrange
  obtain ⟨t, hdraw, hflip, hkeep, -, -, hregs, -, -, hframe, hbytes⟩ := drawSpriteResult x y n s hrange
  have hindex : t.index = s.index := by rw [hframe]
  have hcovers := spriteCovers_congr (hregs x hx) (hregs y hy) hindex hbytes n
  obtain ⟨u, hdraw', hflip', hkeep', -, hhit', -⟩ := drawSpriteResult x y n t (by rwa [hindex])
  refine ⟨t, u, hdraw, hdraw', video_ext fun c r _ _ => ?pixel, hhit'.trans ?collision⟩
  case pixel =>
    change u.pixel c r = s.pixel c r
    by_cases h : SpriteCovers s x y n c r
    · rw [hflip' c r ((hcovers c r).mpr h), hflip c r h, Bool.not_not]
    · rw [hkeep' c r (mt (hcovers c r).mp h), hkeep c r h]
  case collision =>
    refine exists_congr fun c => exists_congr fun r => ?_
    rw [hcovers]
    refine and_congr_right fun h => ?_
    rw [hflip c r h, Bool.not_eq_true']

end Sys2Proof.Machine
end

section
/-! PROOFS. The key and timer instructions (45_keypad_timers.md R140 to R145). A key number always names a latch, so the two skips
complete on it; a wait for a key completes exactly when some key is the least pressed one; the timer instructions copy a byte. -/

namespace Sys2Proof.Machine

/-! ### Skips on a key (R140, R141) -/

theorem keyAt_keyNumber {s : State} {val : Byte} {k : Reg} (h : val.toNat = k.val) :
    s.keyAt val = some s.keypad[k.val] := by
  simp only [keyAt_some (h ▸ k.isLt), h]

theorem exec_skp_keyNumber {x k : Reg} {s : State} (h : (s.reg x).toNat = k.val) :
    exec (.skp x) s = .next (s.advance.skipIf s.keypad[k.val]) := by
  change execSkp x s = _
  simp only [execSkp, keyAt_keyNumber h]

theorem exec_sknp_keyNumber {x k : Reg} {s : State} (h : (s.reg x).toNat = k.val) :
    exec (.sknp x) s = .next (s.advance.skipIf !s.keypad[k.val]) := by
  change execSknp x s = _
  simp only [execSknp, keyAt_keyNumber h]

theorem skipIf_not_pc (s : State) (pressed : Bool) :
    (s.advance.skipIf !pressed).pc = if pressed then s.pc + 2 else s.pc + 4 := by
  cases pressed <;> exact skipIf_advance_pc s _

/-- Settles O38: both skips complete on a key number, the one on the latch and the other on its negation. -/
theorem keySkipResults : Obligations.KeySkipResults := by
  unfold Obligations.KeySkipResults
  exact fun x k s hk =>
    ⟨⟨_, exec_skp_keyNumber hk, skipIf_advance_pc s _, framePc_skipIf s _⟩,
      ⟨_, exec_sknp_keyNumber hk, skipIf_not_pc s _, framePc_skipIf s _⟩⟩

/-! ### Waiting for a key (R142) -/

/-- R142: the least pressed key is the one that is pressed with none pressed below it, for two such keys are neither below the
other. -/
theorem lowestKey_eq_some_iff {s : State} {k : Reg} :
    s.lowestKey = some k ↔ s.keypad[k.val] = true ∧ ∀ j : Reg, j.val < k.val → s.keypad[j.val] = false := by
  refine ⟨lowestKey_some, fun ⟨hk, hbelow⟩ => ?_⟩
  cases hl : s.lowestKey with
  | none => cases hk.symm.trans ((lowestKey_none s).mp hl k)
  | some l =>
    obtain ⟨hpressed, hleast⟩ := lowestKey_some hl
    obtain hlt | heq | hgt := lt_trichotomy l k
    · cases hpressed.symm.trans (hbelow l hlt)
    · rw [heq]
    · cases hk.symm.trans (hleast k hgt)

theorem keyByte_toNat (k : Reg) : (BitVec.ofNat 8 k.val).toNat = k.val := by
  rw [BitVec.toNat_ofNat]; omega

/-- Settles O39: the two things a wait can do (`execLdVxK_cases`) exclude one another, by what they say of the least pressed key. -/
theorem waitForKeyResult : Obligations.WaitForKeyResult := by
  unfold Obligations.WaitForKeyResult
  intro x s
  obtain ⟨hnone, he⟩ | ⟨l, hl, he⟩ := execLdVxK_cases x s
  · refine ⟨s, he, fun _ => rfl, fun k hk hbelow => ?_⟩
    cases hnone.symm.trans (lowestKey_eq_some_iff.mpr ⟨hk, hbelow⟩)
  · refine ⟨_, he, fun hoff => ?_, fun k hk hbelow => ?_⟩
    · cases hl.symm.trans ((lowestKey_none s).mpr hoff)
    · obtain rfl : l = k := Option.some.inj (hl.symm.trans (lowestKey_eq_some_iff.mpr ⟨hk, hbelow⟩))
      exact ⟨by rw [reg_setReg_same, keyByte_toNat], rfl, frameReg_setReg s x _⟩

/-! ### Timers (R143, R144, R145) -/

/-- R159: the sound output is on while the sound timer is not 0. -/
theorem soundActive_iff (s : State) : s.soundActive = true ↔ s.st ≠ 0 := bne_iff_ne

/-- Settles O40: each of the three makes one named update, of `V[x]`, `DT` or `ST`. -/
theorem timerInstructionResults : Obligations.TimerInstructionResults := by
  unfold Obligations.TimerInstructionResults
  exact fun x s =>
    ⟨⟨_, rfl, reg_setReg_same _ x _, rfl, frameReg_setReg s x _⟩, ⟨_, rfl, rfl, rfl, rfl, fun _ => rfl⟩,
      ⟨_, rfl, rfl, rfl, rfl, fun _ => rfl, soundActive_iff _⟩⟩

end Sys2Proof.Machine
end

section
/-! PROOFS. Faults, the tick phase and the host's writes (60_exceptions.md R151 to R162). An instruction answers as the table of
R151 says (`exec_answersAs`), so a step that changes the latch changes nothing else; only a reset clears the latch again; the tick
phase counts up to its threshold and starts again; a host write sets its one element. -/

namespace Sys2Proof.Machine

/-! ### Instructions fault as tabulated (R151, R152) -/

/-- What a table entry says of an instruction's outcome `res` in state `s`: with a record, the latch holds it and nothing else has
changed; without one, the instruction completes and leaves the latch. -/
def AnswersAs (s : State) (res : Result) : Option FaultRecord → Prop
  | some r => res = .next { s with fault := some r }
  | none => ∃ t, res = .next t ∧ t.fault = s.fault

theorem answersAs_none {s t : State} (ht : t.fault = s.fault) : AnswersAs s (.next t) none := ⟨t, rfl, ht⟩

/-- An entry with a condition is met case by case. -/
theorem answersAs_ite {s : State} {res : Result} {P : Prop} [Decidable P] {c : FaultCause} {info : Word}
    (hfault : P → res = raise c info s) (hnext : ¬ P → ∃ t, res = .next t ∧ t.fault = s.fault) :
    AnswersAs s res (if P then some ⟨c, info⟩ else none) := by
  by_cases h : P
  · rw [if_pos h]; exact hfault h
  · rw [if_neg h]; exact hnext h

/-- R45, R126: a range-checked transfer faults exactly when its range leaves memory, with the first address outside. -/
theorem guardRange_answersAs {s done : State} {c : FaultCause} {n : Nat} {P : Prop} [Decidable P]
    (hP : P ↔ ¬ RangeInMemory s.index.toNat n) (hdone : done.fault = s.fault) :
    AnswersAs s (guardRange c n s done) (if P then some ⟨c, BitVec.ofNat 16 (max s.index.toNat 4096)⟩ else none) :=
  answersAs_ite (fun h => guardRange_outside (hP.mp h))
    fun h => ⟨done, guardRange_inside (not_not.mp fun hout => h (hP.mpr hout)), hdone⟩

/-- R140, R141: exactly an index above 15 selects no latch. -/
theorem keyAt_eq_none_iff {s : State} {val : Byte} : s.keyAt val = none ↔ 15 < val.toNat := by
  refine ⟨fun h => ?_, keyAt_none⟩
  by_contra hle
  cases h.symm.trans (keyAt_some (by omega))

/-- R140, R141: both key skips fault alike; `taken` is what each makes of the latch it finds. -/
theorem keySkip_answersAs {s : State} {x : Reg} {res : Result} (taken : Bool → Bool)
    (hcases : (s.keyAt (s.reg x) = none ∧ res = raise .keyIndexOutOfRange ((s.reg x).setWidth 16) s) ∨
      ∃ pressed, s.keyAt (s.reg x) = some pressed ∧ res = .next (s.advance.skipIf (taken pressed))) :
    AnswersAs s res (faultOf (.skp x) s) := by
  obtain ⟨hnone, hres⟩ | ⟨pressed, hsome, hres⟩ := hcases
  · exact answersAs_ite (fun _ => by rw [hres, BitVec.ofNat_toNat]) fun h => absurd (keyAt_eq_none_iff.mp hnone) h
  · exact answersAs_ite (fun h => by cases hsome.symm.trans (keyAt_none h)) fun _ => ⟨_, hres, State.skipIf_fault _ _⟩

theorem execRet_answersAs (s : State) : AnswersAs s (execRet s) (faultOf .ret s) := by
  obtain ⟨hsp, he⟩ | ⟨hsp, he⟩ := execRet_cases s
  · exact answersAs_ite (fun _ => he) fun h => absurd hsp h
  · exact answersAs_ite (fun h => absurd h hsp.ne') fun _ => ⟨_, he, rfl⟩

theorem execCall_answersAs (nnn : Word) (s : State) : AnswersAs s (execCall nnn s) (faultOf (.call nnn) s) := by
  obtain ⟨hsp, he⟩ | ⟨hsp, he⟩ := execCall_cases nnn s
  · exact answersAs_ite (fun _ => he) fun h => absurd hsp h
  · exact answersAs_ite (fun h => absurd h hsp.ne) fun _ => ⟨_, he, rfl⟩

/-- R151: every instruction answers as its table entry says. -/
theorem exec_answersAs (i : Instr) (s : State) : AnswersAs s (exec i s) (faultOf i s) := by
  cases i with
  | ret => exact execRet_answersAs s
  | call nnn => exact execCall_answersAs nnn s
  | skp x => exact keySkip_answersAs id (execSkp_cases x s)
  | sknp x => exact keySkip_answersAs not (execSknp_cases x s)
  | drw _ _ _ | ldB _ | stRegs _ | ldRegs _ => exact guardRange_answersAs (by omega) rfl
  | seImm _ _ | sneImm _ _ | seReg _ _ | sneReg _ _ => exact answersAs_none (State.skipIf_fault _ _)
  | ldVxK x =>
    obtain ⟨-, he⟩ | ⟨k, -, he⟩ := execLdVxK_cases x s
    · exact ⟨s, he, rfl⟩
    · exact ⟨_, he, rfl⟩
  | cls | jp _ | ldImm _ _ | addImm _ _ | ldReg _ _ | or _ _ | and _ _ | xor _ _ | addReg _ _ | sub _ _ | shr _ _ | subn _ _
  | shl _ _ | ldI _ | jpV0 _ | rnd _ _ | ldVxDt _ | ldDtVx _ | ldStVx _ | addI _ | ldF _ => exact answersAs_none rfl

/-- Settles O11: the statement is `exec_answersAs`, entry by entry. -/
theorem instructionsFaultExactlyAsTabulated : Obligations.InstructionsFaultExactlyAsTabulated := by
  unfold Obligations.InstructionsFaultExactlyAsTabulated
  exact exec_answersAs

/-! ### Faults are precise (R152) -/

/-- R152: an instruction that changes the latch changes nothing else. -/
theorem exec_fault_precise {i : Instr} {s t : State} (h : exec i s = .next t) (hne : t.fault ≠ s.fault) :
    t = { s with fault := t.fault } := by
  have ha := exec_answersAs i s
  cases hf : faultOf i s with
  | some r =>
    rw [hf] at ha
    rw [next_unique h ha]
  | none =>
    rw [hf] at ha
    obtain ⟨u, hu, hsame⟩ := ha
    exact absurd (next_unique h hu ▸ hsame) hne

/-- Settles O12: of the four things a step of the core can do, only a fault of the fetch or of the instruction changes the latch;
a completing step leaves it clear. -/
theorem faultingStepChangesOnlyTheLatch : Obligations.FaultingStepChangesOnlyTheLatch := by
  unfold Obligations.FaultingStepChangesOnlyTheLatch
  intro s t hhost h hne
  rw [step_noHostOp hhost] at h
  obtain ⟨-, rfl⟩ | ⟨-, -, -, rfl⟩ | ⟨hclear, -, -, op, i, u, -, -, he, rfl⟩ | ⟨-, -, -, op, r, -, -, rfl⟩ :=
    coreStep_cases h
  · exact absurd rfl hne
  · rfl
  · split at hne
    · next hu => rw [if_pos hu]; exact exec_fault_precise he hne
    · next hu =>
      rw [finishStep_fault, hclear] at hne
      exact absurd (Option.isSome_iff_ne_none.mpr hne) hu
  · exact absurd (finishStep_fault op _) hne

/-! ### The latch holds until a reset (R153) -/

theorem loadProgram_fault (s : State) (reported : Nat) (bytes : List Byte) :
    (s.loadProgram reported bytes).fault = s.fault := by
  unfold State.loadProgram
  split <;> rfl

/-- R153, R180, R181: a host operation leaves the latch, unless it is one of the two resets, which clear it. -/
theorem hostOp_fault (o : HostOp) (s : State) :
    (hostOp o s).fault = s.fault ∨ ((hostOp o s).fault = none ∧ (o = .warmReset ∨ o = .powerOnReset)) := by
  cases o with
  | warmReset => exact .inr ⟨rfl, .inl rfl⟩
  | powerOnReset => exact .inr ⟨rfl, .inr rfl⟩
  | loadProgram reported bytes => exact .inl (loadProgram_fault s reported bytes)
  | setKey _ _ | clearDrawFlag | requestStep _ | setStepsPerTick _ => exact .inl rfl

/-- R87: a step of a halted core leaves the latch. -/
theorem coreStep_fault_of_halted {s t : State} {r : FaultRecord} (hs : s.fault = some r) (h : coreStep s = .next t) :
    t.fault = some r := by
  rw [next_unique h (coreStep_halted (by simp [hs])), hs]

/-- Settles O13: a step is the host's operation (`hostOp_fault`) or a step of the halted core, requested or not. -/
theorem latchHoldsUntilReset : Obligations.LatchHoldsUntilReset := by
  unfold Obligations.LatchHoldsUntilReset
  intro s t r hs h
  obtain ⟨o, rest, hhost, -, rfl⟩ | ⟨n, rest, -, hcore⟩ | ⟨-, hcore⟩ := step_cases h
  · rw [hhost]
    exact (hostOp_fault o { s with host := rest }).imp (·.trans hs)
      fun ⟨hclear, ho⟩ => ⟨hclear, ho.imp (congrArg some) (congrArg some)⟩
  · exact .inl (coreStep_fault_of_halted (s := { s with host := rest, stepsPerTick := n }) hs hcore)
  · exact .inl (coreStep_fault_of_halted hs hcore)

/-! ### The tick phase (R158) -/

/-- Settles O41: the two premises say which branch the tick phase takes; `tick_frame` says what it writes. -/
theorem tickPhaseResult : Obligations.TickPhaseResult := by
  unfold Obligations.TickPhaseResult
  intro s
  refine ⟨fun hdue => ?_, fun hcounts => ?_, tick_frame s⟩
  · rw [tick_fires hdue]
    exact ⟨rfl, countDown_toNat _, countDown_toNat _⟩
  · rw [tick_counts hcounts]
    exact ⟨rfl, rfl, rfl⟩

/-- R158: from a counter of 0, the first `k` tick phases write the counter alone while `k` is below the threshold. -/
theorem tick_iterate {s : State} (h0 : s.tickCount = 0) {k : Nat} (hk : k < s.stepsPerTick) :
    tick^[k] s = { s with tickCount := k } := by
  induction k with
  | zero => rw [Function.iterate_zero_apply, ← h0]
  | succ k ih =>
    rw [Function.iterate_succ_apply', ih (Nat.lt_of_succ_lt hk)]
    exact tick_counts (s := { s with tickCount := k }) hk

/-- R158: from a counter of 0, the last of `steps_per_tick` tick phases starts the counter again and counts the timers down. -/
theorem tick_iterate_stepsPerTick {s : State} (h0 : s.tickCount = 0) (hn : 1 ≤ s.stepsPerTick) :
    tick^[s.stepsPerTick] s = { s with tickCount := 0, dt := countDown s.dt, st := countDown s.st } := by
  obtain ⟨k, hk⟩ := Nat.exists_eq_add_of_le' hn
  calc tick^[s.stepsPerTick] s
      _ = tick (tick^[k] s) := by rw [hk, Function.iterate_succ_apply']
      _ = tick { s with tickCount := k } := by rw [tick_iterate h0 (by omega)]
      _ = { s with tickCount := 0, dt := countDown s.dt, st := countDown s.st } :=
        tick_fires (s := { s with tickCount := k }) hk.le

/-- Settles O42: `tick_iterate` before the last tick phase, `tick_iterate_stepsPerTick` after it. -/
theorem tickCadence : Obligations.TickCadence := by
  unfold Obligations.TickCadence
  intro s h0 hn
  rw [tick_iterate_stepsPerTick h0 hn]
  refine ⟨fun k hk => ?_, rfl, countDown_toNat _, countDown_toNat _⟩
  rw [tick_iterate h0 hk]
  exact ⟨rfl, rfl, rfl⟩

/-- R158: a core that is not halted refuses a step with `steps_per_tick = 0` (log 8). -/
theorem coreStep_refuses {s : State} (hf : s.fault = none) (hz : s.stepsPerTick = 0) :
    coreStep s = .refused .stepsPerTickZero := by
  rw [coreStep, if_neg (by simp [hf]), if_pos hz]

/-- Settles O10: with no operation pending the step is the core's, which refuses it. -/
theorem zeroStepsPerTickIsRefused : Obligations.ZeroStepsPerTickIsRefused := by
  unfold Obligations.ZeroStepsPerTickIsRefused
  intro s hhost hf hz
  rw [step_noHostOp hhost, coreStep_refuses hf hz]

/-! ### What the host writes (R162) -/

theorem keypad_setKey (s : State) (k j : Reg) (b : Bool) :
    (hostOp (.setKey k b) s).keypad[j.val] = if j = k then b else s.keypad[j.val] := by
  change (s.keypad.set k.val b k.isLt)[j.val] = _
  simp only [Vector.getElem_set, Fin.ext_iff, eq_comm]

/-- Settles O48: none of the three is a step request, so each is its `hostOp` on the rest of the queue. -/
theorem hostWriteResults : Obligations.HostWriteResults := by
  unfold Obligations.HostWriteResults
  exact fun s rest k b n =>
    ⟨fun h => ⟨_, step_hostOp h rfl, fun j => keypad_setKey { s with host := rest } k j b, rfl⟩,
      fun h => step_hostOp h rfl, fun h => step_hostOp h rfl⟩

end Sys2Proof.Machine
end

section
/-! PROOFS. Reset and program load (70_reset_and_hazards.md R180 to R183). Both resets give every element but memory the value it
has in `State.reset`, so one lemma per element speaks for both; a load answers as `loadVerdict` says, and an accepted one is a
store of its bytes. -/

namespace Sys2Proof.Machine

/-! ### The elements after a reset (R36) -/

theorem reset_reg (k : Reg) : State.reset.reg k = 0 := Vector.getElem_replicate _

theorem reset_stack (k : Fin 16) : State.reset.stack[k.val] = 0 := Vector.getElem_replicate _

theorem reset_keypad (k : Reg) : State.reset.keypad[k.val] = false := Vector.getElem_replicate _

theorem reset_pixel (c r : Nat) : State.reset.pixel c r = false := pixelOf_cleared c r

/-- R182: memory after power-on reset holds the font from address 0 on. -/
theorem reset_byte_font (k : Nat) (h : k < Config.font.length) : State.reset.byte k = Config.font[k] := by
  change (Config.font[k]?).getD 0 = _
  rw [List.getElem?_eq_getElem h, Option.getD_some]

/-- R180: above the 80 font bytes, memory after power-on reset is 0. -/
theorem reset_byte_above (a : Nat) (h : 80 ≤ a) : State.reset.byte a = 0 := by
  have hlen : Config.font.length ≤ a := h
  change (Config.font[a]?).getD 0 = _
  rw [List.getElem?_eq_none hlen, Option.getD_none]

/-- Settles O45: the step is `State.powerOnReset`, whose core elements are those of `State.reset`. -/
theorem powerOnResetState : Obligations.PowerOnResetState := by
  unfold Obligations.PowerOnResetState
  exact fun s rest h => ⟨_, step_hostOp h rfl, reset_reg, rfl, rfl, reset_stack, rfl, rfl, rfl, reset_keypad, reset_pixel,
    rfl, rfl, rfl, rfl, reset_byte_font, reset_byte_above, rfl, rfl⟩

/-- Settles O46: the step is `State.warmReset`, whose core elements but memory are those of `State.reset`. -/
theorem warmResetState : Obligations.WarmResetState := by
  unfold Obligations.WarmResetState
  exact fun s rest h => ⟨_, step_hostOp h rfl, reset_reg, rfl, rfl, reset_stack, rfl, rfl, rfl, reset_keypad, reset_pixel,
    rfl, rfl, rfl, rfl, fun _ => rfl, rfl, rfl⟩

/-- Settles O56: no byte is listed, `pc` is 0x200 and the stack is empty. -/
theorem resetMeetsInvariant : Obligations.ResetMeetsInvariant := by
  unfold Obligations.ResetMeetsInvariant
  exact inv_of_reset Memory.wf_nil rfl rfl

/-! ### The program loader (R163, R183) -/

theorem loadVerdict_incomplete {reported : Nat} {bytes : List Byte} (h : bytes.length < reported) :
    loadVerdict reported bytes = .romReadIncomplete := if_pos h

theorem loadVerdict_tooLarge {reported : Nat} {bytes : List Byte} (hread : reported ≤ bytes.length)
    (h : Config.progMax < bytes.length) : loadVerdict reported bytes = .romTooLarge := by
  rw [loadVerdict, if_neg hread.not_gt, if_pos h]

theorem loadVerdict_accepted {reported : Nat} {bytes : List Byte} (hread : reported ≤ bytes.length)
    (h : bytes.length ≤ Config.progMax) : loadVerdict reported bytes = .accepted := by
  rw [loadVerdict, if_neg hread.not_gt, if_neg h.not_gt]

theorem loadProgram_of_accepted {reported : Nat} {bytes : List Byte} (h : loadVerdict reported bytes = .accepted)
    (s : State) : s.loadProgram reported bytes = s.storeBytes Config.progBase bytes := by
  rw [State.loadProgram, h]

theorem loadProgram_of_rejected {reported : Nat} {bytes : List Byte} (h : loadVerdict reported bytes ≠ .accepted)
    (s : State) : s.loadProgram reported bytes = s := by
  unfold State.loadProgram
  split
  · contradiction
  · rfl
  · rfl

/-- Settles O47: each of the three clauses fixes the loader's verdict, and the verdict says what the load does. -/
theorem programLoadResult : Obligations.ProgramLoadResult := by
  unfold Obligations.ProgramLoadResult
  intro s rest reported bytes hhost
  refine ⟨({ s with host := rest } : State).loadProgram reported bytes, step_hostOp hhost rfl, ?_, ?_, ?_⟩
  · intro hshort
    have hv := loadVerdict_incomplete hshort
    exact ⟨hv, loadProgram_of_rejected (by simp [hv]) _⟩
  · intro hread hlong
    have hv := loadVerdict_tooLarge hread hlong
    exact ⟨hv, loadProgram_of_rejected (by simp [hv]) _⟩
  · intro hread hfits
    have hv := loadVerdict_accepted hread hfits
    rw [loadProgram_of_accepted hv]
    exact ⟨hv, fun k hk => Memory.read_writeBytes_inside s.mem _ bytes k hk,
      fun a ha => Memory.read_writeBytes_outside s.mem _ bytes a ha, rfl⟩

end Sys2Proof.Machine
end
